-- ==== Sys2Proof/Word.lean ====
section
/-! DEFINITION. The words of the two ports: 64-bit command words (30 R70), 32-bit data words and the
on-air frames of 38 and 2 bits (30 R84, R85). -/

namespace Sys2Proof

/-- A host command word (30 R70). -/
abbrev CommandWord := BitVec 64

/-- A block's data word (00 R6 "data word width"). -/
abbrev DataWord := BitVec 32

/-- An identifier byte (20 R53). -/
abbrev Byte := BitVec 8

/-- An on-air frame as a number, first-emitted bit in the most significant place (30 R84, R85). -/
inductive Frame where
  /-- the 38 bits of a write frame (30 R84) -/
  | write (bits : BitVec 38)
  /-- the 2 bits of a reset frame (30 R85) -/
  | reset (bits : BitVec 2)
  deriving DecidableEq, Repr

/-- What the decoder reads: a whole command word (30 R82) or an on-air frame. -/
inductive PortWord where
  | command (w : CommandWord)
  | frame (f : Frame)
  deriving DecidableEq, Repr

end Sys2Proof
end

