-- ==== Sys2Proof/Syntax.lean ====
section
/-! DEFINITION. The instructions: one constructor per row of spec/opcode_table.json. Operands are plain
unsigned fields (30 R80). -/

namespace Sys2Proof

/-- The host commands (30 R71), the two pseudo-instructions (30 R89) and the three on-air frames
(30 R84, R85). -/
inductive Instr where
  /-- CARRIER_START (40 R120) -/
  | carrierStart
  /-- CARRIER_STOP (40 R121) -/
  | carrierStop
  /-- WRITE_BIT V (41 R140) -/
  | writeBit (v : Bool)
  /-- WRITE_BYTE B (41 R142) -/
  | writeByte (b : BitVec 8)
  /-- WRITE_GAP D, in field clocks (41 R144) -/
  | writeGap (d : BitVec 32)
  /-- WRITE_RESET (42 R166) -/
  | writeReset
  /-- WRITE_BLOCK PAGE LOCK ADDR DATA (42 R162) -/
  | writeBlock (page : BitVec 8) (lock : Bool) (addr : BitVec 3) (data : DataWord)
  /-- WRITE_FORMAT FMT IDLEN ID (43 R192) -/
  | writeFormat (fmt : BitVec 8) (idlen : BitVec 4) (id : BitVec 40)
  /-- WRITE_EM: WRITE_FORMAT 0, 5, five identifier bytes (30 R89) -/
  | writeEm (id : BitVec 40)
  /-- WRITE_HID: WRITE_FORMAT 1, 3, three identifier bytes (30 R89) -/
  | writeHid (id : BitVec 24)
  /-- AIR_WRITE_PAGE0: the write frame with opcode bits `10` (30 R84) -/
  | airWritePage0 (lock : Bool) (data : DataWord) (addr : BitVec 3)
  /-- AIR_WRITE_PAGE1: the write frame with opcode bits `11` (30 R84) -/
  | airWritePage1 (lock : Bool) (data : DataWord) (addr : BitVec 3)
  /-- AIR_RESET: the reset frame `10` (30 R85) -/
  | airReset
  deriving DecidableEq, Repr

end Sys2Proof
end

