-- ==== Sys2Proof/Config.lean ====
section
/-! DEFINITION. The configuration (00 R6, 10 R20 to R26): what is fixed for one machine and is not state.
An OPEN parameter is an opaque constant without a body, so that a claim holds for every value of it. -/

namespace Sys2Proof

/-- The timing profile in field clocks (10 R21). -/
structure TimingProfile where
  waitTime : Nat
  startGap : Nat
  writeGap : Nat
  data0 : Nat
  data1 : Nat
  program : Nat
  deriving DecidableEq, Repr

/-- The reference values of 10 R21, used by the spec's test vectors only. -/
def TimingProfile.reference : TimingProfile :=
  { waitTime := 400, startGap := 30, writeGap := 18, data0 := 24, data1 := 56, program := 700 }

/-- A format descriptor (10 R23). -/
structure FormatDescriptor where
  tag : BitVec 8
  idBytes : Nat
  nwords : Nat
  config : DataWord
  dataPage : BitVec 8
  encode : List Byte → List DataWord

/-- The carrier's duty cycle as a ratio. -/
structure DutyCycle where
  num : Nat
  den : Nat
  deriving DecidableEq, Repr

/-- A further descriptor of the format table without its tag: `idBytesLess1 + 1` is its `id_bytes`
(1 to 5), `nwordsLess1 + 1` its `nwords` (1 to 7), so that every value of it is admitted by 10 R26. -/
structure ExtraFormat where
  idBytesLess1 : Fin 5
  nwordsLess1 : Fin 7
  config : DataWord
  dataPage : BitVec 8
  encode : List Byte → List DataWord

/-- The descriptor a further entry gives under a tag. -/
def ExtraFormat.descriptor (x : ExtraFormat) (tag : BitVec 8) : FormatDescriptor :=
  { tag := tag, idBytes := x.idBytesLess1.val + 1, nwords := x.nwordsLess1.val + 1,
    config := x.config, dataPage := x.dataPage, encode := x.encode }

namespace Config

/-- `FIELD_CLOCK_US` (00 R6). -/
def fieldClockUs : Nat := 8

/-- `CARRIER_HZ` (00 R6). -/
def carrierHz : Nat := 125000

/-- `CARRIER_DUTY` (00 R6); no rule depends on it. Log 17. -/
def carrierDuty : DutyCycle := ⟨1, 2⟩

/-- `WAIT_TIME`, OPEN (10 R21). Log 8. -/
opaque waitTime : Nat
/-- `START_GAP`, OPEN (10 R21). Log 8. -/
opaque startGap : Nat
/-- `WRITE_GAP`, OPEN (10 R21). Log 8. -/
opaque writeGap : Nat
/-- `DATA_0`, OPEN (10 R21). Log 8. -/
opaque data0 : Nat
/-- `DATA_1 - DATA_0 - 1`, OPEN: with it `DATA_0 < DATA_1` holds by construction (10 R22). Log 8. -/
opaque data1Excess : Nat
/-- `PROGRAM - DATA_1 - 1`, OPEN: with it `DATA_1 < PROGRAM` holds by construction (10 R22). Log 8. -/
opaque programExcess : Nat

/-- The machine's timing profile: every profile that meets the invariant of 10 R22, and no other, is
a value of it. -/
def timing : TimingProfile :=
  { waitTime := waitTime, startGap := startGap, writeGap := writeGap, data0 := data0,
    data1 := data0 + data1Excess + 1, program := data0 + data1Excess + 1 + programExcess + 1 }

/-- `ENC_EM`, the 5-byte to 64-bit encoder, OPEN (00 R6, 10 R24). Log 9. -/
opaque encEm : List Byte → BitVec 64

/-- `ENC_HID`, the 3-byte to word-list encoder, OPEN (00 R6, 10 R25). Log 9. -/
opaque encHid : List Byte → List DataWord

/-- Further entries of `FORMATS` by tag, OPEN; read at the tags 2 to 255 only (00 R6, 10 R26). Log 9. -/
opaque extraFormat : BitVec 8 → Option ExtraFormat

/-- The EM4100-style descriptor (10 R24): block 1 gets the low 32 bits, block 2 the high 32 bits. -/
def em : FormatDescriptor :=
  { tag := 0#8, idBytes := 5, nwords := 2, config := 0b01100000000101001000000001000000#32, dataPage := 0#8,
    encode := fun id => [(encEm id).extractLsb' 0 32, (encEm id).extractLsb' 32 32] }

/-- The HID26-style descriptor (10 R25): the encoder's words in its own order. -/
def hid : FormatDescriptor :=
  { tag := 1#8, idBytes := 3, nwords := 3, config := 0b00000000000100000111000001100000#32, dataPage := 0#8,
    encode := fun id => encHid id }

/-- The tags 2 to 255. -/
def extraTags : List (BitVec 8) := (List.range 254).map fun k => BitVec.ofNat 8 (k + 2)

/-- The table `FORMATS` (10 R23, R26): the two built-in descriptors and the further entries. -/
def formats : List FormatDescriptor :=
  em :: hid :: extraTags.filterMap fun t => (extraFormat t).map fun x => x.descriptor t

/-- The descriptor of `FORMATS` with a tag (43 R192 step 1). -/
def lookup (fmt : BitVec 8) : Option FormatDescriptor := formats.find? fun F => F.tag == fmt

/-- `GMASK_AT_RESET`, OPEN (10 R39, 70 R271). Log 7. -/
opaque gmaskAtReset : Bool

/-- `JITTER_MASKED`, OPEN (40 R114). Log 10. -/
opaque jitterMasked : Nat

/-- The jitter draw `j` of 40 R114 in µs, free. Log 10. -/
opaque jitter : Nat → Nat

/-- The wall time in µs of a micro-operation that is no delay, free (40 R114). Log 10. -/
opaque opMicros : Nat → Nat

/-- The payload buffer after a session, free (10 R36). Log 6. -/
opaque freePayload : Nat → List DataWord

end Config
end Sys2Proof
end

