-- ==== Sys2Proof/WellFormed.lean ====
section
/-! DEFINITION. Which instructions and which configurations are well formed. -/

namespace Sys2Proof

/-- The WRITE_FORMAT operands of a WRITE_EM word (30 R89; the opcode table's mask of WRITE_EM). -/
def isEmWord (fmt : BitVec 8) (idlen : BitVec 4) : Bool := fmt == 0#8 && idlen == 5#4

/-- The WRITE_FORMAT operands of a WRITE_HID word (30 R89; the opcode table's mask of WRITE_HID). -/
def isHidWord (fmt : BitVec 8) (idlen : BitVec 4) (id : BitVec 40) : Bool :=
  fmt == 1#8 && idlen == 3#4 && id.extractLsb' 24 16 == 0#16

/-- An instruction is well formed when it is the most specific row of the opcode table for its word:
a WRITE_FORMAT whose word is a WRITE_EM or WRITE_HID word is written with that constructor (log 4).
Every other range is in the operands' types. -/
def Instr.wf : Instr → Bool
  | .writeFormat fmt idlen id => !isEmWord fmt idlen && !isHidWord fmt idlen id
  | .carrierStart => true
  | .carrierStop => true
  | .writeBit _ => true
  | .writeByte _ => true
  | .writeGap _ => true
  | .writeReset => true
  | .writeBlock _ _ _ _ => true
  | .writeEm _ => true
  | .writeHid _ => true
  | .airWritePage0 _ _ _ => true
  | .airWritePage1 _ _ _ => true
  | .airReset => true

/-- The timing invariant `DATA_0 < DATA_1 < PROGRAM` (10 R22). -/
def TimingProfile.wf (t : TimingProfile) : Bool := decide (t.data0 < t.data1) && decide (t.data1 < t.program)

/-- The bounds of a descriptor (10 R26); `data_page` is not constrained. -/
def FormatDescriptor.wf (F : FormatDescriptor) : Bool :=
  decide (1 ≤ F.idBytes) && decide (F.idBytes ≤ 5) && decide (1 ≤ F.nwords) && decide (F.nwords ≤ 7)

/-- The data fields of a descriptor, all but its encoder. -/
def FormatDescriptor.data (F : FormatDescriptor) : BitVec 8 × Nat × Nat × DataWord × BitVec 8 :=
  (F.tag, F.idBytes, F.nwords, F.config, F.dataPage)

/-- A format table is well formed (10 R26): it holds EM and HID as given, its tags are distinct and
every descriptor is within its bounds. -/
def formatsWf (T : List FormatDescriptor) : Bool :=
  (T.map FormatDescriptor.data).contains Config.em.data && (T.map FormatDescriptor.data).contains Config.hid.data
    && decide (T.map FormatDescriptor.tag).Nodup && T.all FormatDescriptor.wf

end Sys2Proof
end

