-- ==== Sys2Proof/Decode.lean ====
section
/-! DEFINITION. The decoder, total on every command word and every frame, and after it the encoder
(30_encoding.md sections 1 and 3). -/

namespace Sys2Proof

/-- Why a command word is no command. -/
inductive CommandReject where
  /-- `cmd[63:56]` is unassigned (30 R71, R81) -/
  | illegalOpcode
  /-- a bit outside the opcode's named fields is set (30 R81) -/
  | reservedBits
  deriving DecidableEq, Repr

/-- Why a word is no instruction. -/
inductive Reject where
  /-- a command word that is no command -/
  | command (r : CommandReject)
  /-- a frame whose opcode bits the spec does not give (30 R84, R85; log 19) -/
  | notAFrame
  deriving DecidableEq, Repr

/-- What a decoder answers: an instruction, or why there is none. -/
inductive Decoded (why : Type) where
  | instr (i : Instr)
  | rejected (r : why)
  deriving DecidableEq, Repr

/-- The field `w[lo + n - 1 : lo]` (00 R7). -/
def field {m : Nat} (w : BitVec m) (lo n : Nat) : BitVec n := w.extractLsb' lo n

/-- The bit `w[i]` (00 R7). -/
def flag {m : Nat} (w : BitVec m) (i : Nat) : Bool := w.getLsbD i

/-- The instruction of a WRITE_FORMAT word: the most specific row of the opcode table (log 4). -/
def buildFormat (w : CommandWord) : Instr :=
  if isEmWord (field w 48 8) (field w 44 4) then .writeEm (field w 0 40)
  else if isHidWord (field w 48 8) (field w 44 4) (field w 0 40) then .writeHid (field w 0 24)
  else .writeFormat (field w 48 8) (field w 44 4) (field w 0 40)

/-- The command word's opcode `OPC` (30 R70). -/
def opcode (w : CommandWord) : BitVec 8 := field w 56 8

/-- A word of a row with a mask and a match: the row's instruction, or a reserved bit is set (30 R81). -/
def rowWord (w mask bits : CommandWord) (i : Instr) : Decoded CommandReject :=
  if w &&& mask = bits then .instr i else .rejected .reservedBits

/-- A command word by the rows of 30 R72 to R79: unassigned opcodes first, reserved bits second (30 R81, 60 R235
checks 1 and 2). -/
def decodeCommand (w : CommandWord) : Decoded CommandReject :=
  if opcode w = 0x01#8 then rowWord w 0xFFFFFFFFFFFFFFFF#64 0x0100000000000000#64 .carrierStart
  else if opcode w = 0x02#8 then rowWord w 0xFFFFFFFFFFFFFFFF#64 0x0200000000000000#64 .carrierStop
  else if opcode w = 0x10#8 then rowWord w 0xFFFFFFFFFFFFFFFE#64 0x1000000000000000#64 (.writeBit (flag w 0))
  else if opcode w = 0x11#8 then rowWord w 0xFFFFFFFFFFFFFF00#64 0x1100000000000000#64 (.writeByte (field w 0 8))
  else if opcode w = 0x12#8 then rowWord w 0xFFFFFFFF00000000#64 0x1200000000000000#64 (.writeGap (field w 0 32))
  else if opcode w = 0x13#8 then rowWord w 0xFFFFFFFFFFFFFFFF#64 0x1300000000000000#64 .writeReset
  else if opcode w = 0x20#8 then rowWord w 0xFF00F0FF00000000#64 0x2000000000000000#64
    (.writeBlock (field w 48 8) (flag w 43) (field w 40 3) (field w 0 32))
  else if opcode w = 0x30#8 then rowWord w 0xFF000F0000000000#64 0x3000000000000000#64 (buildFormat w)
  else .rejected .illegalOpcode

/-- An on-air frame (30 R84, R85). -/
def decodeFrame : Frame → Decoded Reject
  | .write f =>
    if field f 36 2 = 0b10#2 then
      .instr (.airWritePage0 (flag f 35) (field f 3 32) (field f 0 3))
    else if field f 36 2 = 0b11#2 then
      .instr (.airWritePage1 (flag f 35) (field f 3 32) (field f 0 3))
    else .rejected .notAFrame
  | .reset f => if f = 0b10#2 then .instr .airReset else .rejected .notAFrame

/-- The decoder. -/
def decode : PortWord → Decoded Reject
  | .command w =>
    match decodeCommand w with
    | .instr i => .instr i
    | .rejected r => .rejected (.command r)
  | .frame f => decodeFrame f

/-! The encoder. -/

/-- CARRIER_START (30 R72). -/
def wordCarrierStart : CommandWord := 0x01#8 ++ 0#56
/-- CARRIER_STOP (30 R73). -/
def wordCarrierStop : CommandWord := 0x02#8 ++ 0#56
/-- WRITE_BIT (30 R74). -/
def wordWriteBit (v : Bool) : CommandWord := 0x10#8 ++ 0#55 ++ BitVec.ofBool v
/-- WRITE_BYTE (30 R75). -/
def wordWriteByte (b : BitVec 8) : CommandWord := 0x11#8 ++ 0#48 ++ b
/-- WRITE_GAP (30 R76). -/
def wordWriteGap (d : BitVec 32) : CommandWord := 0x12#8 ++ 0#24 ++ d
/-- WRITE_RESET (30 R79). -/
def wordWriteReset : CommandWord := 0x13#8 ++ 0#56
/-- WRITE_BLOCK (30 R77). -/
def wordWriteBlock (page : BitVec 8) (lock : Bool) (addr : BitVec 3) (data : DataWord) : CommandWord :=
  0x20#8 ++ page ++ 0#4 ++ BitVec.ofBool lock ++ addr ++ 0#8 ++ data
/-- WRITE_FORMAT (30 R78). -/
def wordWriteFormat (fmt : BitVec 8) (idlen : BitVec 4) (id : BitVec 40) : CommandWord :=
  0x30#8 ++ fmt ++ idlen ++ 0#4 ++ id
/-- WRITE_EM (30 R89): WRITE_FORMAT 0, 5. -/
def wordWriteEm (id : BitVec 40) : CommandWord := wordWriteFormat 0#8 5#4 id
/-- WRITE_HID (30 R89): WRITE_FORMAT 1, 3, the two identifier bytes above the third zero. -/
def wordWriteHid (id : BitVec 24) : CommandWord := wordWriteFormat 1#8 3#4 (0#16 ++ id)

/-- The 38-bit write frame with its opcode bits (30 R84). -/
def writeFrame (opc : BitVec 2) (lock : Bool) (data : DataWord) (addr : BitVec 3) : BitVec 38 :=
  opc ++ BitVec.ofBool lock ++ data ++ addr

/-- The 2-bit reset frame (30 R85). -/
def resetFrame : BitVec 2 := 0b10#2

/-- The words of an instruction, from the same encoding rules. -/
def encode : Instr → PortWord
  | .carrierStart => .command wordCarrierStart
  | .carrierStop => .command wordCarrierStop
  | .writeBit v => .command (wordWriteBit v)
  | .writeByte b => .command (wordWriteByte b)
  | .writeGap d => .command (wordWriteGap d)
  | .writeReset => .command wordWriteReset
  | .writeBlock page lock addr data => .command (wordWriteBlock page lock addr data)
  | .writeFormat fmt idlen id => .command (wordWriteFormat fmt idlen id)
  | .writeEm id => .command (wordWriteEm id)
  | .writeHid id => .command (wordWriteHid id)
  | .airWritePage0 lock data addr => .frame (.write (writeFrame 0b10#2 lock data addr))
  | .airWritePage1 lock data addr => .frame (.write (writeFrame 0b11#2 lock data addr))
  | .airReset => .frame (.reset resetFrame)

/-- The command word that has an instruction performed: its own word for a host command. An on-air frame is
nothing a host can issue (30 R82): the block emits a write frame in a block write and a reset frame in a
reset sequence only (30 R84 to R86), so the command is that WRITE_BLOCK or WRITE_RESET (log 3). -/
def commandWord : Instr → CommandWord
  | .carrierStart => wordCarrierStart
  | .carrierStop => wordCarrierStop
  | .writeBit v => wordWriteBit v
  | .writeByte b => wordWriteByte b
  | .writeGap d => wordWriteGap d
  | .writeReset => wordWriteReset
  | .writeBlock page lock addr data => wordWriteBlock page lock addr data
  | .writeFormat fmt idlen id => wordWriteFormat fmt idlen id
  | .writeEm id => wordWriteEm id
  | .writeHid id => wordWriteHid id
  | .airWritePage0 lock data addr => wordWriteBlock 0#8 lock addr data
  | .airWritePage1 lock data addr => wordWriteBlock 1#8 lock addr data
  | .airReset => wordWriteReset

/-- The command word to issue for a word of the opcode table: a command word as it is, decodable or not; for a
frame the command that emits it; none for a number that is no frame (log 19). -/
def issuedFor : PortWord → Option CommandWord
  | .command w => some w
  | .frame f =>
    match decodeFrame f with
    | .instr i => some (commandWord i)
    | .rejected _ => none

/-- The port word of an opcode-table word of `nbits` bits (the row's bits in whole bytes): a reset frame (2 bits)
where the bits hold no write frame (38 bits), a write frame where they hold no command word (64 bits), else a
command word; none where the number does not fit. -/
def tablePort (nbits w : Nat) : Option PortWord :=
  if nbits < 38 then if w < 2 ^ 2 then some (.frame (.reset (BitVec.ofNat 2 w))) else none
  else if nbits < 64 then if w < 2 ^ 38 then some (.frame (.write (BitVec.ofNat 38 w))) else none
  else if w < 2 ^ 64 then some (.command (BitVec.ofNat 64 w)) else none

/-- The instruction the decoder reads from an opcode-table word. -/
def decodeTableWord (nbits w : Nat) : Option Instr :=
  match tablePort nbits w with
  | none => none
  | some p =>
    match decode p with
    | .instr i => some i
    | .rejected _ => none

end Sys2Proof
end

