-- ==== Sys2Proof/Machine/State.lean ====
section
/-! DEFINITION. The state of the writer as plain data (10_state.md), the micro-operations and events it
holds (40 R100, R101), the reasons to stop, and the state after reset (10 R39). -/

namespace Sys2Proof.Machine

/-- The carrier (10 R27). -/
inductive Carrier where
  | stopped
  | running
  | paused
  deriving DecidableEq, Repr

/-- The carrier pins (10 R30). -/
inductive Pins where
  | reset
  | configured
  deriving DecidableEq, Repr

/-- The session phase (10 R34). -/
inductive Phase where
  | idle
  | carrierStarted
  | configBlockSent
  | dataBlockSent
  | resetSent
  | carrierStopped
  deriving DecidableEq, Repr

/-- The fault codes 0 to 8 (60 R230); 9 to 15 are never produced (log 11). -/
inductive FaultCode where
  | none
  | invalidPage
  | badIdLength
  | encoderContract
  | concurrentCommand
  | illegalCommand
  | reservedNonzero
  | carrierState
  | badFormat
  deriving DecidableEq, Repr

/-- The micro-operations (40 R100). -/
inductive MicroOp where
  | start
  | stop
  | pause
  | resume
  | pinsReset
  | delay (n : Nat)
  | maskEnter
  | maskExit
  | checkPage (p : BitVec 8)
  | setPhase (ph : Phase) (i : BitVec 3)
  deriving DecidableEq, Repr

/-- The level of a delay: a hold or a gap (40 R101). -/
inductive Level where
  | on
  | off
  deriving DecidableEq, Repr

/-- The events of the output trace (40 R101). -/
inductive Event where
  | start (hz : Nat) (duty : DutyCycle)
  | stop
  | pause
  | resume
  | pinsReset
  | delay (n : Nat) (level : Level)
  | mask (prev : Bool)
  | unmask (restored : Bool)
  | fault (c : FaultCode)
  deriving DecidableEq, Repr

/-- The agents (60 R245). -/
inductive Agent where
  | host
  | handler
  | block
  deriving DecidableEq, Repr

/-- What the host thread does at a step of its own (60 R236, R239, R249). -/
inductive HostAction where
  | issue (w : CommandWord)
  | writeMask (b : Bool)
  | readStatus
  deriving DecidableEq, Repr

/-- What the interrupt handlers do at a step of their own (60 R247). -/
inductive HandlerAction where
  | issue (w : CommandWord)
  | readStatus
  deriving DecidableEq, Repr

/-- What happens at a step (60 R243; log 1): a step of an agent, or the system reset (70 R270). -/
inductive Turn where
  | agent (a : Agent)
  | systemReset
  deriving DecidableEq, Repr

/-- The state. -/
structure State where
  /-- `st.carrier` (10 R27) -/
  carrier : Carrier
  /-- `st.pins` (10 R30) -/
  pins : Pins
  /-- `st.gmask`, the host core's interrupt mask (10 R28) -/
  gmask : Bool
  /-- `st.in_session` (10 R29) -/
  inSession : Bool
  /-- `st.saved_mask` (10 R29) -/
  savedMask : Bool
  /-- `st.pending`, head first (10 R31) -/
  pending : List MicroOp
  /-- `st.fault` (10 R32) -/
  fault : FaultCode
  /-- `st.phase` (10 R34) -/
  phase : Phase
  /-- `st.dblk` (10 R34) -/
  dblk : BitVec 3
  /-- `st.cmd_latch` (10 R35) -/
  cmdLatch : CommandWord
  /-- `st.payload` (10 R36) -/
  payload : List DataWord
  /-- `st.trace`, oldest first (10 R33) -/
  trace : List Event
  /-- the model's own: whose issue set `pending`; it blocks the host thread (60 R246; log 12) -/
  issuer : Agent
  /-- the model's own: what the host thread will do, oldest first (log 1) -/
  hostQueue : List HostAction
  /-- the model's own: what the handlers will do, oldest first (log 1) -/
  handlerQueue : List HandlerAction
  /-- the model's own: who moves next, oldest first (log 1) -/
  turns : List Turn
  /-- the model's own: the last word the status port answered (60 R239; log 14) -/
  statusOut : Option (BitVec 32)
  /-- the model's own: wall time of the micro-operations performed, in µs (40 R114; log 10) -/
  wallMicros : Nat
  /-- the model's own: the index of the next free draw (log 6, log 10) -/
  draws : Nat
  deriving DecidableEq, Repr

/-- The faults that stop the machine: there are none. Every fault of the spec (60 R230) is a next state
with its code latched, its event emitted and its teardown pending (60 R232). Safe: nothing raises it. -/
inductive Fault : Type
  deriving DecidableEq, Repr

/-- What the model refuses. -/
inductive Refusal where
  /-- an instruction without a meaning yet: no arm of exec raises it. Safe. -/
  | notModelled (mnemonic : String)
  deriving DecidableEq, Repr

/-- The state after reset (10 R39, 70 R270). The payload, which the spec leaves unspecified, is empty
(log 5); the model's own fields are empty (log 18). -/
def State.reset : State :=
  { carrier := .stopped, pins := .reset, gmask := Config.gmaskAtReset, inSession := false, savedMask := false,
    pending := [], fault := .none, phase := .idle, dblk := 0#3, cmdLatch := 0#64, payload := [], trace := [],
    issuer := .block, hostQueue := [], handlerQueue := [], turns := [], statusOut := none, wallMicros := 0, draws := 0 }

end Sys2Proof.Machine
end

