-- ==== Sys2Proof/Machine/Flags.lean ====
section
/-! DEFINITION. The derived flags (10 R37) and the STATUS word (10 R38, 30 R83). The block has no
arithmetic condition codes. -/

namespace Sys2Proof.Machine

/-- `busy` (10 R37). -/
def State.busy (s : State) : Bool := !s.pending.isEmpty

/-- `halted` (10 R37). -/
def State.halted (s : State) : Bool := s.fault != .none

/-- The 4-bit fault code (60 R230). -/
def FaultCode.code : FaultCode → BitVec 4
  | .none => 0
  | .invalidPage => 1
  | .badIdLength => 2
  | .encoderContract => 3
  | .concurrentCommand => 4
  | .illegalCommand => 5
  | .reservedNonzero => 6
  | .carrierState => 7
  | .badFormat => 8

/-- The CARRIER field of STATUS (30 R83). -/
def Carrier.code : Carrier → BitVec 2
  | .stopped => 0
  | .running => 1
  | .paused => 2

/-- The PINS field of STATUS (30 R83). -/
def Pins.code : Pins → BitVec 1
  | .reset => 0
  | .configured => 1

/-- The PHASE field of STATUS (30 R83). -/
def Phase.code : Phase → BitVec 3
  | .idle => 0
  | .carrierStarted => 1
  | .configBlockSent => 2
  | .dataBlockSent => 3
  | .resetSent => 4
  | .carrierStopped => 5

/-- The STATUS word (30 R83): from bit 31 down, reserved zeros, DBLK, PHASE, SAVED, SESSION, PINS, CARRIER,
FAULT, HALTED, BUSY. -/
def State.status (s : State) : BitVec 32 :=
  0#15 ++ s.dblk ++ s.phase.code ++ BitVec.ofBool s.savedMask ++ BitVec.ofBool s.inSession ++ s.pins.code
    ++ s.carrier.code ++ s.fault.code ++ BitVec.ofBool s.halted ++ BitVec.ofBool s.busy

end Sys2Proof.Machine
end

