-- ==== Sys2Proof/Machine/Operands.lean ====
section
/-! DEFINITION. The operand forms: bit sequences in transmission order (00 R8, 20 R55) and the identifier
bytes of WRITE_FORMAT (20 R53). -/

namespace Sys2Proof.Machine

/-- The bits of a value, bit 0 first (00 R8). -/
def lsbFirst {n : Nat} (v : BitVec n) : List Bool := (List.range n).map fun i => v.getLsbD i

/-- The bits of a value, bit `n - 1` first (00 R8; the loop of 42 R163). -/
def msbFirst {n : Nat} (v : BitVec n) : List Bool := (List.range n).map fun i => v.getLsbD (n - 1 - i)

/-- Identifier byte `k`, `ID[8k+7:8k]` (20 R53). -/
def idByte (id : BitVec 40) (k : Nat) : Byte := id.extractLsb' (8 * k) 8

/-- The identifier as the encoder is given it: `IDLEN` bytes, byte 0 first (43 R192 step 5). -/
def idBytes (idlen : BitVec 4) (id : BitVec 40) : List Byte := (List.range idlen.toNat).map (idByte id)

/-- Every byte `k` with `IDLEN <= k <= 4` is 0 (43 R192 step 3). -/
def idTailZero (idlen : BitVec 4) (id : BitVec 40) : Bool :=
  (List.range 5).all fun k => decide (k < idlen.toNat) || idByte id k == 0#8

end Sys2Proof.Machine
end

