-- ==== Sys2Proof/Machine/Ops.lean ====
section
/-! DEFINITION. The shared operations: events, taking a fault and its teardown (60 R232, R233), issuing a
command (60 R236), performing a micro-operation (40 R102 to R111), the block step (40 R112) and the
system reset (70 R270). -/

namespace Sys2Proof.Machine

/-- `emit(ev)` (00 R9). -/
def State.emit (s : State) (ev : Event) : State := { s with trace := s.trace ++ [ev] }

/-! Taking a fault. There is no return from one but reset (60 R240). -/

/-- `teardown()` on the state at the moment of the fault (60 R233). -/
def teardown (s : State) : List MicroOp :=
  (if s.inSession then [.maskExit] else [])
    ++ (if s.carrier = .stopped then [] else [.stop, .pinsReset])
    ++ [.setPhase .idle 0#3]

/-- The fault register keeps its first code (10 R32); where no fault has been raised yet, as 60 R232 has
it always, it takes the new one (log 11). -/
def latchFault (old new : FaultCode) : FaultCode := if old = .none then new else old

/-- `raise Fault(c)` (60 R232). -/
def raiseFault (c : FaultCode) (s : State) : State :=
  { s with fault := latchFault s.fault c, trace := s.trace ++ [.fault c], pending := teardown s }

/-! Issuing a command. -/

/-- What the acceptance of a command loads: the micro-operations of its expansion, the word it latches and, for
WRITE_FORMAT, the payload. -/
structure Expansion where
  ops : List MicroOp
  latch : CommandWord
  payload : Option (List DataWord)

/-- What the acceptance checks of a command answer (60 R235): the first failing check's code, or the
expansion. -/
inductive Acceptance where
  | fails (c : FaultCode)
  | accepts (e : Expansion)

/-- The acceptance of a command (60 R236, last branch). -/
def State.load (s : State) (e : Expansion) : State :=
  { s with pending := e.ops, cmdLatch := e.latch, payload := e.payload.getD s.payload }

/-- `issue(cmd)` after decoding (60 R236): a halted block does nothing, a busy one raises
CONCURRENT_COMMAND, a failing check raises its fault, else the command is accepted. -/
def issue (a : Acceptance) (s : State) : State :=
  if s.halted then s
  else if s.busy then raiseFault .concurrentCommand s
  else
    match a with
    | .fails c => raiseFault c s
    | .accepts e => s.load e

/-- The acceptance of a command that needs the carrier in a given state (60 R235 check 4). -/
def needCarrier (c : Carrier) (e : Expansion) (s : State) : Acceptance :=
  if s.carrier = c then .accepts e else .fails .carrierState

/-! Performing a micro-operation. -/

/-- The level of a delay (40 R107). -/
def State.level (s : State) : Level := if s.carrier = .running then .on else .off

/-- The micro-operations' effects (40 R102 to R111). -/
def perform (op : MicroOp) (s : State) : State :=
  match op with
  | .start => { s with carrier := .running, pins := .configured }.emit (.start Config.carrierHz Config.carrierDuty)
  | .stop => { s with carrier := .stopped }.emit .stop
  | .pause => if s.carrier = .running then { s with carrier := .paused }.emit .pause else raiseFault .carrierState s
  | .resume => if s.carrier = .paused then { s with carrier := .running }.emit .resume else raiseFault .carrierState s
  | .pinsReset => { s with pins := .reset }.emit .pinsReset
  | .delay n => s.emit (.delay n s.level)
  | .maskEnter => { s with savedMask := s.gmask, gmask := true, inSession := true }.emit (.mask s.gmask)
  | .maskExit => { s with gmask := s.savedMask, inSession := false }.emit (.unmask s.savedMask)
  | .checkPage p => if p = 0#8 ∨ p = 1#8 then s else raiseFault .invalidPage s
  | .setPhase ph i => { s with phase := ph, dblk := i }

/-- The jitter of the draw `k`: any value, bounded by `JITTER_MASKED` while the interrupts are masked
(40 R114; log 10). -/
def jitterOf (masked : Bool) (k : Nat) : Nat :=
  if masked then min (Config.jitter k) Config.jitterMasked else Config.jitter k

/-- The wall time of a micro-operation in µs (40 R114; log 10). -/
def microsOf (op : MicroOp) (masked : Bool) (k : Nat) : Nat :=
  match op with
  | .delay n => n * Config.fieldClockUs + jitterOf masked k
  | .start | .stop | .pause | .resume | .pinsReset | .maskEnter | .maskExit | .checkPage _ | .setPhase _ _ =>
    Config.opMicros k

/-- The block goes idle, or the critical section of a session ends: from here the payload is unspecified
(10 R36, 92 D34; log 6). -/
def discardsPayload (before after : State) : Bool := after.pending.isEmpty || (before.inSession && !after.inSession)

/-- What every micro-operation does beside its own rule: wall time passes, a draw is used up, and a
payload that is over becomes a free value of at most 7 words. -/
def settle (op : MicroOp) (before after : State) : State :=
  { after with
    wallMicros := before.wallMicros + microsOf op before.gmask before.draws
    draws := before.draws + 1
    payload := if discardsPayload before after then (Config.freePayload before.draws).take 7 else after.payload }

/-- The block step (40 R112); an idle block has none (40 R113). -/
def blockStep (s : State) : State :=
  match s.pending with
  | [] => s
  | op :: rest => settle op s (perform op { s with pending := rest })

/-! Reset. -/

/-- The system reset (70 R270, R271): the reset state, with what the environment still has to do and the
model's clock and draws kept (log 15). -/
def systemReset (s : State) : State :=
  { State.reset with
    hostQueue := s.hostQueue, handlerQueue := s.handlerQueue, turns := s.turns,
    statusOut := s.statusOut, wallMicros := s.wallMicros, draws := s.draws }

end Sys2Proof.Machine
end

