-- ==== Sys2Proof/Machine/Carrier.lean ====
section
/-! DEFINITION. The carrier-control commands (40_primitives.md section 3). -/

namespace Sys2Proof.Machine

/-- CARRIER_START (40 R120): needs the carrier stopped; expands to `[Start]`. -/
def execCarrierStart (s : State) : Host.Outcome State Fault Refusal :=
  .next (issue (needCarrier .stopped ⟨[.start], wordCarrierStart, none⟩ s) s)

/-- CARRIER_STOP (40 R121): legal in every carrier state; expands to `[Stop, PinsReset]`. -/
def execCarrierStop (s : State) : Host.Outcome State Fault Refusal :=
  .next (issue (.accepts ⟨[.stop, .pinsReset], wordCarrierStop, none⟩) s)

end Sys2Proof.Machine
end

