-- ==== Sys2Proof/Machine/Transmitter.lean ====
section
/-! DEFINITION. The bit/byte transmitter (41_transmitter.md): the expansions `bitx`, `bytex`, `gapx` over a
timing profile, and the commands WRITE_BIT, WRITE_BYTE, WRITE_GAP. -/

namespace Sys2Proof.Machine

/-- `gapx(d)` (41 R145). -/
def gapx (d : Nat) : List MicroOp := [.pause, .delay d, .resume]

/-- `bitx(v)` (41 R141). -/
def bitx (t : TimingProfile) (v : Bool) : List MicroOp :=
  [.delay (if v then t.data1 else t.data0)] ++ gapx t.writeGap

/-- The cells of a bit sequence, in its order. -/
def cellsx (t : TimingProfile) (bits : List Bool) : List MicroOp := bits.flatMap (bitx t)

/-- `bytex(b)` (41 R143): bit 0 first. -/
def bytex (t : TimingProfile) (b : BitVec 8) : List MicroOp := cellsx t (lsbFirst b)

/-- WRITE_BIT (41 R140). -/
def execWriteBit (v : Bool) (s : State) : Host.Outcome State Fault Refusal :=
  .next (issue (needCarrier .running ⟨bitx Config.timing v, wordWriteBit v, none⟩ s) s)

/-- WRITE_BYTE (41 R142). -/
def execWriteByte (b : BitVec 8) (s : State) : Host.Outcome State Fault Refusal :=
  .next (issue (needCarrier .running ⟨bytex Config.timing b, wordWriteByte b, none⟩ s) s)

/-- WRITE_GAP (41 R144): the duration is exact, without wrap-around (92 D24). -/
def execWriteGap (d : BitVec 32) (s : State) : Host.Outcome State Fault Refusal :=
  .next (issue (needCarrier .running ⟨gapx d.toNat, wordWriteGap d, none⟩ s) s)

end Sys2Proof.Machine
end

