-- ==== Sys2Proof/Machine/BlockWriter.lean ====
section
/-! DEFINITION. The block writer (42_block_writer.md): the expansions `rstx` and `blkx`, the commands
WRITE_BLOCK and WRITE_RESET, and the on-air frames (30 R84 to R86). -/

namespace Sys2Proof.Machine

/-- `rstx` (42 R165). -/
def rstx (t : TimingProfile) : List MicroOp := gapx t.startGap ++ bitx t true ++ bitx t false

/-- `blkx(p, a, l, d)` (42 R163), step by step. -/
def blkx (t : TimingProfile) (p : BitVec 8) (a : BitVec 3) (l : Bool) (d : DataWord) : List MicroOp :=
  [.checkPage p]
    ++ [.delay t.waitTime]
    ++ gapx t.startGap
    ++ bitx t true ++ bitx t (decide (p = 1#8))
    ++ bitx t l
    ++ cellsx t (msbFirst d)
    ++ cellsx t (msbFirst a)
    ++ [.delay t.program, .delay t.waitTime]
    ++ rstx t

/-- A frame on air (30 R86): preceded by a start gap, each bit one bit cell, first-emitted bit first. -/
def framex {n : Nat} (t : TimingProfile) (frame : BitVec n) : List MicroOp :=
  gapx t.startGap ++ cellsx t (msbFirst frame)

/-- WRITE_BLOCK (42 R162); the page is not checked at acceptance. -/
def execWriteBlock (page : BitVec 8) (lock : Bool) (addr : BitVec 3) (data : DataWord) (s : State) :
    Host.Outcome State Fault Refusal :=
  .next (issue (needCarrier .running
    ⟨blkx Config.timing page addr lock data, wordWriteBlock page lock addr data, none⟩ s) s)

/-- WRITE_RESET (42 R166). -/
def execWriteReset (s : State) : Host.Outcome State Fault Refusal :=
  .next (issue (needCarrier .running ⟨rstx Config.timing, wordWriteReset, none⟩ s) s)

/-- AIR_WRITE_PAGE0 (30 R84, R86): the write frame of page 0 goes on air in the block write that WRITE_BLOCK
starts, after the wait and the start gap, before the programming delay, the wait and the reset sequence (log 3). -/
def execAirWritePage0 (lock : Bool) (data : DataWord) (addr : BitVec 3) (s : State) :
    Host.Outcome State Fault Refusal :=
  .next (issue (needCarrier .running
    ⟨blkx Config.timing 0#8 addr lock data, wordWriteBlock 0#8 lock addr data, none⟩ s) s)

/-- AIR_WRITE_PAGE1 (30 R84, R86): the write frame of page 1, as that of page 0 (log 3). -/
def execAirWritePage1 (lock : Bool) (data : DataWord) (addr : BitVec 3) (s : State) :
    Host.Outcome State Fault Refusal :=
  .next (issue (needCarrier .running
    ⟨blkx Config.timing 1#8 addr lock data, wordWriteBlock 1#8 lock addr data, none⟩ s) s)

/-- AIR_RESET (30 R85, R86): the reset frame goes on air in the reset sequence that WRITE_RESET starts; no
micro-operation of the command follows it (log 3). -/
def execAirReset (s : State) : Host.Outcome State Fault Refusal :=
  .next (issue (needCarrier .running ⟨rstx Config.timing, wordWriteReset, none⟩ s) s)

end Sys2Proof.Machine
end

