-- ==== Sys2Proof/Machine/Session.lean ====
section
/-! DEFINITION. The session controller (43_session.md): one sequencer over the format descriptors, and the
commands WRITE_FORMAT, WRITE_EM, WRITE_HID. -/

namespace Sys2Proof.Machine

/-- The data blocks of a session from address `i` on (43 R193). -/
def dataBlocksx (t : TimingProfile) (page : BitVec 8) : Nat → List DataWord → List MicroOp
  | _, [] => []
  | i, w :: ws =>
    blkx t page (BitVec.ofNat 3 i) false w ++ [.setPhase .dataBlockSent (BitVec.ofNat 3 i)]
      ++ dataBlocksx t page (i + 1) ws

/-- `fmtx(F, w)` (43 R193). -/
def fmtx (t : TimingProfile) (F : FormatDescriptor) (w : List DataWord) : List MicroOp :=
  [.start, .setPhase .carrierStarted 0#3]
    ++ [.maskEnter]
    ++ blkx t 0#8 0#3 false F.config ++ [.setPhase .configBlockSent 0#3]
    ++ dataBlocksx t F.dataPage 1 w
    ++ rstx t ++ [.setPhase .resetSent 0#3]
    ++ [.maskExit]
    ++ [.stop, .pinsReset, .setPhase .carrierStopped 0#3, .setPhase .idle 0#3]

/-- Steps 2 to 5 of the acceptance of WRITE_FORMAT, for a descriptor (43 R192, R195): the encoder is
called here, once. -/
def descriptorAcceptance (F : FormatDescriptor) (word : CommandWord) (idlen : BitVec 4) (id : BitVec 40)
    (s : State) : Acceptance :=
  if idlen.toNat ≠ F.idBytes then .fails .badIdLength
  else if idTailZero idlen id = false then .fails .reservedNonzero
  else if s.carrier ≠ .stopped then .fails .carrierState
  else if (F.encode (idBytes idlen id)).length ≠ F.nwords then .fails .encoderContract
  else .accepts ⟨fmtx Config.timing F (F.encode (idBytes idlen id)), word, some (F.encode (idBytes idlen id))⟩

/-- The acceptance of WRITE_FORMAT after the common checks (43 R192 steps 1 to 5). -/
def formatAcceptance (fmt : BitVec 8) (idlen : BitVec 4) (id : BitVec 40) (s : State) : Acceptance :=
  match Config.lookup fmt with
  | none => .fails .badFormat
  | some F => descriptorAcceptance F (wordWriteFormat fmt idlen id) idlen id s

/-- WRITE_FORMAT (43 R192). -/
def execWriteFormat (fmt : BitVec 8) (idlen : BitVec 4) (id : BitVec 40) (s : State) :
    Host.Outcome State Fault Refusal :=
  .next (issue (formatAcceptance fmt idlen id s) s)

/-- WRITE_EM (30 R89): WRITE_FORMAT 0, 5. -/
def execWriteEm (id : BitVec 40) (s : State) : Host.Outcome State Fault Refusal :=
  .next (issue (formatAcceptance 0#8 5#4 id s) s)

/-- WRITE_HID (30 R89): WRITE_FORMAT 1, 3, the identifier's bytes 3 and 4 zero. -/
def execWriteHid (id : BitVec 24) (s : State) : Host.Outcome State Fault Refusal :=
  .next (issue (formatAcceptance 1#8 3#4 (0#16 ++ id) s) s)

end Sys2Proof.Machine
end

