-- ==== Sys2Proof/Machine/Dispatch.lean ====
section
/-! DEFINITION. One arm per instruction. -/

namespace Sys2Proof.Machine

def exec (i : Instr) (s : State) : Host.Outcome State Fault Refusal :=
  match i with
  | .carrierStart => Sys2Proof.Machine.execCarrierStart s
  | .carrierStop => Sys2Proof.Machine.execCarrierStop s
  | .writeBit v => Sys2Proof.Machine.execWriteBit v s
  | .writeByte b => Sys2Proof.Machine.execWriteByte b s
  | .writeGap d => Sys2Proof.Machine.execWriteGap d s
  | .writeReset => Sys2Proof.Machine.execWriteReset s
  | .writeBlock page lock addr data => Sys2Proof.Machine.execWriteBlock page lock addr data s
  | .writeFormat fmt idlen id => Sys2Proof.Machine.execWriteFormat fmt idlen id s
  | .writeEm id => Sys2Proof.Machine.execWriteEm id s
  | .writeHid id => Sys2Proof.Machine.execWriteHid id s
  | .airWritePage0 lock data addr => Sys2Proof.Machine.execAirWritePage0 lock data addr s
  | .airWritePage1 lock data addr => Sys2Proof.Machine.execAirWritePage1 lock data addr s
  | .airReset => Sys2Proof.Machine.execAirReset s

end Sys2Proof.Machine
end

