-- ==== Sys2Proof/Machine/Agents.lean ====
section
/-! DEFINITION. The agents' steps (60_exceptions.md sections 2 to 4): when each has one and what it does. -/

namespace Sys2Proof.Machine

/-- The host thread is blocked while a command of its own is in flight (60 R246). -/
def hostBlocked (s : State) : Bool := s.issuer == .host && s.busy

/-- The host thread has an issue step: it is not blocked, and no session runs (43 R196; log 12). -/
def hostMayIssue (s : State) : Bool := !hostBlocked s && !s.inSession

/-- The host thread has a mask-write step: only while `pending = []` (60 R249). -/
def hostMayWriteMask (s : State) : Bool := !s.busy

/-- The handlers have a step only while `gmask = 0` (60 R247). -/
def handlerMayMove (s : State) : Bool := !s.gmask

/-- The first of the host thread's actions has a step now (60 R246, R249; a status read always). -/
def hostEnabled (s : State) : Bool :=
  match s.hostQueue with
  | [] => false
  | .issue _ :: _ => hostMayIssue s
  | .writeMask _ :: _ => hostMayWriteMask s
  | .readStatus :: _ => true

/-- The first of the handlers' actions has a step now (60 R247). -/
def handlerEnabled (s : State) : Bool := !s.handlerQueue.isEmpty && handlerMayMove s

/-- An agent has a step now. -/
def agentEnabled (a : Agent) (s : State) : Bool :=
  match a with
  | .host => hostEnabled s
  | .handler => handlerEnabled s
  | .block => s.busy

/-- Whose command is in flight after an issue: the host thread is blocked from its own issue on, be it
accepted or faulting; a handler's issue frees it only where it starts a command; an issue to a halted
block blocks nobody (60 R237, R246; log 12). The block issues nothing (60 R245). -/
def issuerAfter (a : Agent) (s : State) : Agent :=
  if s.halted then s.issuer
  else
    match a with
    | .host => .host
    | .handler => if s.busy then s.issuer else .handler
    | .block => s.issuer

/-- The code of the first two checks of 60 R235: an unassigned opcode, a reserved bit. -/
def rejectCode : CommandReject → FaultCode
  | .illegalOpcode => .illegalCommand
  | .reservedBits => .reservedNonzero

/-- A word at the command port: the decoded instruction is executed; a word that is no command fails check 1
or 2 of 60 R235. -/
def runWord (w : CommandWord) (s : State) : Host.Outcome State Fault Refusal :=
  match decodeCommand w with
  | .instr i => exec i s
  | .rejected r => .next (issue (.fails (rejectCode r)) s)

/-- An issue by an agent (60 R236). -/
def issueBy (a : Agent) (w : CommandWord) (s : State) : Host.Outcome State Fault Refusal :=
  runWord w { s with issuer := issuerAfter a s }

/-- The status port's answer (60 R239). -/
def readStatus (s : State) : State := { s with statusOut := some s.status }

/-- The host thread's step: its first action (60 R245, R249). -/
def hostStep (s : State) : Host.Outcome State Fault Refusal :=
  match s.hostQueue with
  | [] => .next s
  | .issue w :: q => issueBy .host w { s with hostQueue := q }
  | .writeMask b :: q => .next { s with gmask := b, hostQueue := q }
  | .readStatus :: q => .next (readStatus { s with hostQueue := q })

/-- The handlers' step: their first action (60 R247). -/
def handlerStep (s : State) : Host.Outcome State Fault Refusal :=
  match s.handlerQueue with
  | [] => .next s
  | .issue w :: q => issueBy .handler w { s with handlerQueue := q }
  | .readStatus :: q => .next (readStatus { s with handlerQueue := q })

/-- One agent's step; an agent without one lets its turn pass (log 1). -/
def agentStep (a : Agent) (s : State) : Host.Outcome State Fault Refusal :=
  if agentEnabled a s then
    match a with
    | .host => hostStep s
    | .handler => handlerStep s
    | .block => .next (blockStep s)
  else .next s

/-- Who moves where `turns` says nothing: the block while it is busy, else the host thread, else the
handlers (log 1). -/
def defaultAgent (s : State) : Agent :=
  if s.busy then .block else if hostEnabled s then .host else .handler

/-- One step of the machine (60 R243): the next turn, or the default agent's step. -/
def machineStep (s : State) : Host.Outcome State Fault Refusal :=
  match s.turns with
  | [] => agentStep (defaultAgent s) s
  | .agent a :: ts => agentStep a { s with turns := ts }
  | .systemReset :: ts => .next (systemReset { s with turns := ts })

/-- A command word placed where the next step takes it: the host thread's next issue, with the host thread's
turn (log 2). -/
def placeWord (w : CommandWord) (s : State) : State :=
  { s with hostQueue := .issue w :: s.hostQueue, turns := .agent .host :: s.turns }

end Sys2Proof.Machine
end

