-- ==== Sys2Proof/Machine/Step.lean ====
section
/-! DEFINITION. The step of the machine, and how the host places its next instruction. -/

namespace Sys2Proof.Machine

/-- One step (60 R243, R245). -/
def step (s : State) : Host.Outcome State Fault Refusal := machineStep s

/-- The state with an opcode-table word placed so that the next step runs it: a command word, or the command
that emits a frame, as the host thread's next issue (log 2, log 3). -/
def State.withFetchWord (s : State) (nbits w : Nat) : State :=
  match (tablePort nbits w).bind issuedFor with
  | none => s
  | some c => placeWord c s

end Sys2Proof.Machine
end

