-- ==== Sys2Proof/Safety.lean ====
section
/-! DEFINITION. The terms claims use: runs of several steps, the invariant of the reachable states (10 R41),
the events a bit sequence puts on air, and nominal durations (70 R290). -/

namespace Sys2Proof.Machine

/-- `n` steps, ending at the first refusal. -/
def steps : Nat → State → Host.Outcome State Fault Refusal
  | 0, s => .next s
  | n + 1, s =>
    match step s with
    | .next t => steps n t
    | .fault r => .fault r
    | .refused r => .refused r

/-- The block is idle and not halted: ready to accept a command (60 R236). -/
def State.ready (s : State) : Prop := s.fault = .none ∧ s.pending = []

/-- The next step is the block's, with `op` at the head of what is pending and `ts` the turns after it: the turn
is the block's, or no turn is asked for (log 1). -/
def State.blockMoves (s : State) (op : MicroOp) (rest : List MicroOp) (ts : List Turn) : Prop :=
  (s.turns = .agent .block :: ts ∨ s.turns = [] ∧ ts = []) ∧ s.pending = op :: rest

/-- The next step is the host thread's with `x` its first action: the turn is its own, or no turn is asked for
and the block is idle (log 1). -/
def State.hostMoves (s : State) (x : HostAction) (q : List HostAction) (ts : List Turn) : Prop :=
  (s.turns = .agent .host :: ts ∨ s.turns = [] ∧ ts = [] ∧ s.pending = []) ∧ s.hostQueue = x :: q

/-- The next step is the handlers' with `x` their first action: the turn is theirs, or no turn is asked for, the
block is idle and the host thread has nothing to do (log 1). -/
def State.handlerMoves (s : State) (x : HandlerAction) (q : List HandlerAction) (ts : List Turn) : Prop :=
  (s.turns = .agent .handler :: ts ∨ s.turns = [] ∧ ts = [] ∧ s.pending = [] ∧ s.hostQueue = [])
    ∧ s.handlerQueue = x :: q

/-- `t` is `s` but for the model's clock, its free draws and the payload, which no rule reads (10 R36). -/
def State.agrees (s t : State) : Prop :=
  ∃ w d p, t = { s with wallMicros := w, draws := d, payload := p }

/-- A run of `n` steps from `s` ends in a state that agrees with `t`. -/
def runsTo (n : Nat) (s t : State) : Prop := ∃ u, steps n s = .next u ∧ t.agrees u

/-! The invariant. -/

/-- A pending list fits a carrier state and a critical section. Unhalted: a gap's Pause finds the carrier
running and is left only by Delay and Resume; a session's mask is entered once, with the carrier on, and left
before the carrier stops. Halted: only a teardown (60 R233). At the end nothing is left open: no gap,
no session, and after a fault the carrier is stopped. -/
def opsFit (halted : Bool) : Carrier → Bool → List MicroOp → Bool
  | c, session, [] => !session && (if halted then c == .stopped else c != .paused)
  | c, session, .start :: rest => !halted && c == .stopped && !session && opsFit halted .running session rest
  | c, session, .stop :: rest => (halted || c != .paused) && !session && opsFit halted .stopped session rest
  | c, session, .pause :: rest => !halted && c == .running && opsFit halted .paused session rest
  | c, session, .resume :: rest => !halted && c == .paused && opsFit halted .running session rest
  | c, session, .pinsReset :: rest => (halted || c != .paused) && opsFit halted c session rest
  | c, session, .delay _ :: rest => !halted && c != .stopped && opsFit halted c session rest
  | c, session, .maskEnter :: rest => !halted && c == .running && !session && opsFit halted c true rest
  | c, session, .maskExit :: rest => (halted || c == .running) && session && opsFit halted c false rest
  | c, session, .checkPage _ :: rest => !halted && c == .running && opsFit halted c session rest
  | c, session, .setPhase _ _ :: rest => (halted || c != .paused) && opsFit halted c session rest

/-- The invariant of the states (10 R41), with what makes every step keep it. -/
def StateInvariant (s : State) : Prop :=
  opsFit s.halted s.carrier s.inSession s.pending = true
    ∧ (s.inSession = true → s.gmask = true)
    ∧ (s.inSession = true → s.carrier ≠ .stopped)
    ∧ s.payload.length ≤ 7

/-! Events on air. -/

/-- The events of a gap with the carrier running before it (41 R145). -/
def gapEvents (d : Nat) : List Event := [.pause, .delay d .off, .resume]

/-- The events of a bit cell (41 R141). -/
def cellEvents (t : TimingProfile) (v : Bool) : List Event :=
  .delay (if v then t.data1 else t.data0) .on :: gapEvents t.writeGap

/-- The events of a bit sequence. -/
def cellsEvents (t : TimingProfile) (bits : List Bool) : List Event := bits.flatMap (cellEvents t)

/-- The events of a framed bit sequence: start gap, then the cells (30 R86). -/
def frameEvents (t : TimingProfile) (bits : List Bool) : List Event :=
  gapEvents t.startGap ++ cellsEvents t bits

/-- The 38 bits of a write frame in emission order (30 R84): opcode, lock bit, data, address. -/
def writeFrameBits (page1 lock : Bool) (data : DataWord) (addr : BitVec 3) : List Bool :=
  [true, page1, lock] ++ msbFirst data ++ msbFirst addr

/-- The events of a block write on a valid page (42 R163): wait, write frame, programming delay, wait,
reset frame. -/
def blockEvents (t : TimingProfile) (page1 lock : Bool) (data : DataWord) (addr : BitVec 3) : List Event :=
  .delay t.waitTime .on :: frameEvents t (writeFrameBits page1 lock data addr)
    ++ [.delay t.program .on, .delay t.waitTime .on] ++ frameEvents t [true, false]

/-- The phase and block number a micro-operation sets (40 R111), if any. -/
def phaseSet : MicroOp → Option (Phase × BitVec 3)
  | .setPhase ph i => some (ph, i)
  | .start | .stop | .pause | .resume | .pinsReset | .delay _ | .maskEnter | .maskExit | .checkPage _ => none

/-! Durations. -/

/-- The nominal duration of a micro-operation in field clocks (43 R205): a delay's count, else nothing. -/
def clocksOf : MicroOp → Nat
  | .delay n => n
  | .start | .stop | .pause | .resume | .pinsReset | .maskEnter | .maskExit | .checkPage _ | .setPhase _ _ => 0

/-- The nominal duration of an expansion (70 R290). -/
def clocks (ops : List MicroOp) : Nat := (ops.map clocksOf).sum

/-- The number of 1 bits. -/
def popcount {n : Nat} (v : BitVec n) : Nat := (lsbFirst v).count true

/-- `T_blk` (42 R164), for a page 0 or 1. -/
def blockClocks (t : TimingProfile) (p : BitVec 8) (a : BitVec 3) (l : Bool) (d : DataWord) : Nat :=
  2 * t.waitTime + 2 * t.startGap + t.program + 40 * t.writeGap
    + (1 + p.toNat + l.toNat + popcount d + popcount a + 1) * t.data1
    + (40 - (1 + p.toNat + l.toNat + popcount d + popcount a + 1)) * t.data0

/-- `T_rst` (43 R205). -/
def resetClocks (t : TimingProfile) : Nat := t.startGap + t.data1 + t.data0 + 2 * t.writeGap

end Sys2Proof.Machine
end

