-- ==== Sys2Proof/Certificates/Slice0/Obligations.lean ====
section
/-! DEFINITION. The statements for the provers. `settle op s t` in a conclusion is `t` with the model's
clock, draw index and payload moved on; `MicroOpTimeAndPayload` says what it can change. -/

open Sys2Proof Sys2Proof.Machine

/-! Reset. -/

/-- 10 R39, 70 R270: a reset turn, at any state, leaves every piece of block state at its reset value. -/
def Obligations.ResetSetsEveryBlockField : Prop :=
  ∀ (s : State) (ts : List Turn), s.turns = .systemReset :: ts →
    ∃ t, step s = .next t ∧ t.carrier = .stopped ∧ t.pins = .reset ∧ t.inSession = false ∧ t.savedMask = false
      ∧ t.pending = [] ∧ t.fault = .none ∧ t.phase = .idle ∧ t.dblk = 0#3 ∧ t.cmdLatch = 0#64 ∧ t.trace = []
      ∧ t.gmask = Config.gmaskAtReset

/-- 70 R272, 30 R83: after reset STATUS reads 0, the block is ready, and with nothing asked of it it stays so (the
model's default turn, log 1). -/
def Obligations.ResetIsQuiet : Prop :=
  State.reset.status = 0 ∧ State.reset.ready ∧ step State.reset = .next State.reset

/-! STATUS. -/

/-- 30 R83: every field of STATUS, in every state, and its value after reset. -/
def Obligations.StatusWordLayout : Prop :=
  State.reset.status = 0#32 ∧ ∀ s : State,
    s.status.getLsbD 0 = decide (s.pending ≠ [])
      ∧ s.status.getLsbD 1 = decide (s.fault ≠ .none)
      ∧ s.status.extractLsb' 2 4 = (match s.fault with
          | .none => 0#4 | .invalidPage => 1#4 | .badIdLength => 2#4 | .encoderContract => 3#4
          | .concurrentCommand => 4#4 | .illegalCommand => 5#4 | .reservedNonzero => 6#4
          | .carrierState => 7#4 | .badFormat => 8#4)
      ∧ s.status.extractLsb' 6 2 = (match s.carrier with | .stopped => 0#2 | .running => 1#2 | .paused => 2#2)
      ∧ s.status.extractLsb' 8 1 = (match s.pins with | .reset => 0#1 | .configured => 1#1)
      ∧ s.status.getLsbD 9 = s.inSession
      ∧ s.status.getLsbD 10 = s.savedMask
      ∧ s.status.extractLsb' 11 3 = (match s.phase with
          | .idle => 0#3 | .carrierStarted => 1#3 | .configBlockSent => 2#3 | .dataBlockSent => 3#3
          | .resetSent => 4#3 | .carrierStopped => 5#3)
      ∧ s.status.extractLsb' 14 3 = s.dblk
      ∧ s.status.extractLsb' 17 15 = 0#15

/-- 60 R239: a status read by the host thread or by the handlers, at a step of theirs, answers STATUS, kept in statusOut
(log 14), and changes no other field but the reader's queue and turn; the host thread's turn is never blocked for it. -/
def Obligations.StatusReadChangesNothing : Prop :=
  (∀ (s : State) (ts : List Turn) (q : List HostAction), s.hostMoves .readStatus q ts →
      step s = .next { s with turns := ts, hostQueue := q, statusOut := some s.status })
  ∧ (∀ (s : State) (ts : List Turn) (q : List HandlerAction), s.handlerMoves .readStatus q ts → s.gmask = false →
      step s = .next { s with turns := ts, handlerQueue := q, statusOut := some s.status })

/-! A step runs the decoded instruction. -/

/-- 60 R236, R246: the host thread's issue, at its turn or by default on an idle block, executes the decoded
instruction; the host thread becomes the issuer unless the block is halted (log 12). -/
def Obligations.StepRunsHostCommand : Prop :=
  ∀ (s : State) (ts : List Turn) (q : List HostAction) (w : CommandWord) (i : Instr),
    s.hostMoves (.issue w) q ts → s.inSession = false → (s.issuer ≠ .host ∨ s.pending = []) →
    decode (.command w) = .instr i →
      step s = exec i { s with
        turns := ts, hostQueue := q, issuer := if s.fault = .none then .host else s.issuer }

/-- 60 R236, R247: the handlers' issue, at their turn or by default on an idle block, executes the decoded
instruction; they become the issuer when they start a command on an idle block (log 12). -/
def Obligations.StepRunsHandlerCommand : Prop :=
  ∀ (s : State) (ts : List Turn) (q : List HandlerAction) (w : CommandWord) (i : Instr),
    s.handlerMoves (.issue w) q ts → s.gmask = false → decode (.command w) = .instr i →
      step s = exec i { s with
        turns := ts, handlerQueue := q,
        issuer := if s.fault = .none ∧ s.pending = [] then .handler else s.issuer }

/-- 30 R82, R84 to R86, 60 R245, log 3: a frame is on air only by a command of the host: the host thread's issue of the
command that emits it executes the decoded frame. -/
def Obligations.StepRunsAirFrame : Prop :=
  ∀ (s : State) (ts : List Turn) (q : List HostAction) (f : Frame) (w : CommandWord) (i : Instr),
    decode (.frame f) = .instr i → issuedFor (.frame f) = some w →
    s.hostMoves (.issue w) q ts → s.inSession = false → (s.issuer ≠ .host ∨ s.pending = []) →
      step s = exec i { s with
        turns := ts, hostQueue := q, issuer := if s.fault = .none then .host else s.issuer }

/-- Log 2, log 3: a table word placed by withFetchWord in an idle state outside a session is what the very next
step executes, on that state with the host thread noted as the issuer. -/
def Obligations.PlacedWordRunsNext : Prop :=
  ∀ (s : State) (nbits w : Nat) (i : Instr),
    s.ready → s.inSession = false → decodeTableWord nbits w = some i →
      step (s.withFetchWord nbits w) = exec i { s with issuer := .host }

/-! Issuing a command. -/

/-- 30 R81, 60 R235 checks 1 and 2: on a ready block, a word with an unassigned opcode raises ILLEGAL_COMMAND,
a word with an assigned opcode and a reserved bit set raises RESERVED_NONZERO, be it the host thread's issue or the
handlers'. The issuer noted is the model's deduction (log 12). -/
def Obligations.UndecodableWordFaults : Prop :=
  ∀ (s : State) (ts : List Turn) (w : CommandWord), s.ready →
    (∀ c : FaultCode,
        (w.extractLsb' 56 8 ∉ [0x01#8, 0x02#8, 0x10#8, 0x11#8, 0x12#8, 0x13#8, 0x20#8, 0x30#8] ∧ c = .illegalCommand)
        ∨ (c = .reservedNonzero ∧ ∃ (opc : BitVec 8) (named : BitVec 64),
            (opc, named) ∈ [(0x01#8, 0#64), (0x02#8, 0#64), (0x10#8, 0x1#64), (0x11#8, 0xFF#64),
              (0x12#8, 0xFFFFFFFF#64), (0x13#8, 0#64), (0x20#8, 0x00FF0F00FFFFFFFF#64),
              (0x30#8, 0x00FFF0FFFFFFFFFF#64)]
            ∧ w.extractLsb' 56 8 = opc ∧ w &&& 0x00FFFFFFFFFFFFFF#64 &&& ~~~named ≠ 0) →
      (∀ q, s.hostMoves (.issue w) q ts → s.inSession = false →
        step s = .next (raiseFault c { s with turns := ts, hostQueue := q, issuer := .host }))
      ∧ (∀ q, s.handlerMoves (.issue w) q ts → s.gmask = false →
        step s = .next (raiseFault c { s with turns := ts, handlerQueue := q, issuer := .handler })))

/-- 60 R237: an issue to a halted block, of any word at all, by the host thread or the handlers, has no effect but that
the issuer's action is over. When the host thread has that issue step, and that the noted issuer stays, is the model's
deduction (log 12). -/
def Obligations.HaltedBlockIgnoresEveryIssue : Prop :=
  (∀ (i : Instr) (s : State), s.fault ≠ .none → exec i s = .next s)
  ∧ (∀ (s : State) (ts : List Turn) (q : List HostAction) (w : CommandWord),
      s.hostMoves (.issue w) q ts → s.inSession = false → (s.issuer ≠ .host ∨ s.pending = []) → s.fault ≠ .none →
        step s = .next { s with turns := ts, hostQueue := q })
  ∧ (∀ (s : State) (ts : List Turn) (q : List HandlerAction) (w : CommandWord),
      s.handlerMoves (.issue w) q ts → s.gmask = false → s.fault ≠ .none →
        step s = .next { s with turns := ts, handlerQueue := q })

/-- 60 R236, R238: an issue to a busy block, of any instruction and of any word at all, decodable or not, by the handlers or
by a host thread that is not blocked, raises CONCURRENT_COMMAND; the new command is not latched. That the host thread has
an issue step while a handler's command runs, and whom the two step clauses note as the issuer, is the model's deduction
(log 12): 60 R246 does not say it. -/
def Obligations.ConcurrentIssueFaults : Prop :=
  (∀ (i : Instr) (s : State), s.fault = .none → s.pending ≠ [] →
      exec i s = .next (raiseFault .concurrentCommand s) ∧ (raiseFault .concurrentCommand s).cmdLatch = s.cmdLatch)
  ∧ (∀ (s : State) (ts : List Turn) (q : List HandlerAction) (w : CommandWord),
      s.handlerMoves (.issue w) q ts → s.gmask = false → s.fault = .none → s.pending ≠ [] →
        step s = .next (raiseFault .concurrentCommand { s with turns := ts, handlerQueue := q }))
  ∧ (∀ (s : State) (ts : List Turn) (q : List HostAction) (w : CommandWord),
      s.hostMoves (.issue w) q ts → s.inSession = false → s.issuer ≠ .host → s.fault = .none → s.pending ≠ [] →
        step s = .next (raiseFault .concurrentCommand { s with turns := ts, hostQueue := q, issuer := .host }))

/-- 60 R232, R233: raising a fault latches the code, emits its event and replaces what was pending; the
teardown restores the mask, then stops the carrier, and leaves the block idle and halted. -/
def Obligations.FaultTearsDown : Prop :=
  ∀ (c : FaultCode) (s : State), c ≠ .none → s.fault = .none → s.turns = [] →
    (raiseFault c s).fault = c ∧ (raiseFault c s).trace = s.trace ++ [.fault c]
    ∧ (raiseFault c s).pending = (if s.inSession then [MicroOp.maskExit] else [])
        ++ (if s.carrier = .stopped then [] else [.stop, .pinsReset]) ++ [.setPhase .idle 0]
    ∧ runsTo (raiseFault c s).pending.length (raiseFault c s)
        { s with
          fault := c, pending := [], carrier := .stopped, inSession := false, phase := .idle, dblk := 0#3,
          pins := if s.carrier = .stopped then s.pins else .reset,
          gmask := if s.inSession then s.savedMask else s.gmask,
          trace := s.trace ++ [.fault c] ++ (if s.inSession then [.unmask s.savedMask] else [])
            ++ (if s.carrier = .stopped then [] else [.stop, .pinsReset]) }

/-- 60 R235 check 4: on a ready block a command that finds the carrier in the wrong state raises
CARRIER_STATE. -/
def Obligations.WrongCarrierFaults : Prop :=
  (∀ s : State, s.ready → s.carrier ≠ .stopped → exec .carrierStart s = .next (raiseFault .carrierState s))
  ∧ (∀ (s : State) (id : BitVec 40), s.ready → s.carrier ≠ .stopped →
      exec (.writeEm id) s = .next (raiseFault .carrierState s))
  ∧ (∀ (s : State) (id : BitVec 24), s.ready → s.carrier ≠ .stopped →
      exec (.writeHid id) s = .next (raiseFault .carrierState s))
  ∧ (∀ (s : State) (v : Bool), s.ready → s.carrier ≠ .running →
      exec (.writeBit v) s = .next (raiseFault .carrierState s))
  ∧ (∀ (s : State) (b : BitVec 8), s.ready → s.carrier ≠ .running →
      exec (.writeByte b) s = .next (raiseFault .carrierState s))
  ∧ (∀ (s : State) (d : BitVec 32), s.ready → s.carrier ≠ .running →
      exec (.writeGap d) s = .next (raiseFault .carrierState s))
  ∧ (∀ s : State, s.ready → s.carrier ≠ .running → exec .writeReset s = .next (raiseFault .carrierState s))
  ∧ (∀ (s : State) (page : BitVec 8) (lock : Bool) (addr : BitVec 3) (data : DataWord),
      s.ready → s.carrier ≠ .running →
      exec (.writeBlock page lock addr data) s = .next (raiseFault .carrierState s))

/-- 10 R35, 60 R234, R236: an issue to a ready block, by the host thread or the handlers, latches exactly the issued word
when it is accepted, and keeps the latch when it faults. -/
def Obligations.AcceptedWordIsLatched : Prop :=
  ∀ (s t : State) (ts : List Turn) (w : CommandWord), s.ready →
    ((∃ q, s.hostMoves (.issue w) q ts) ∧ s.inSession = false
      ∨ (∃ q, s.handlerMoves (.issue w) q ts) ∧ s.gmask = false) →
    step s = .next t →
      (t.fault = .none → t.cmdLatch = w ∧ t.trace = s.trace)
      ∧ (t.fault ≠ .none → t.cmdLatch = s.cmdLatch ∧ t.trace = s.trace ++ [.fault t.fault])

/-! Micro-operations: the block's step (40 R112), at its own turn or by default. -/

/-- 40 R102, R103, R106: Start runs the carrier and configures the pins, Stop stops the carrier from any state,
PinsReset resets the pins and leaves the carrier; each emits its event. The duty 1/2 of the start event is a
presumed value (00 R6, log 17). -/
def Obligations.CarrierMicroOps : Prop :=
  ∀ (s : State) (rest : List MicroOp) (ts : List Turn),
    (s.blockMoves .start rest ts → step s = .next (settle .start s { s with
      pending := rest, turns := ts, carrier := .running, pins := .configured,
      trace := s.trace ++ [.start 125000 ⟨1, 2⟩] }))
    ∧ (s.blockMoves .stop rest ts → step s = .next (settle .stop s { s with
      pending := rest, turns := ts, carrier := .stopped, trace := s.trace ++ [.stop] }))
    ∧ (s.blockMoves .pinsReset rest ts → step s = .next (settle .pinsReset s { s with
      pending := rest, turns := ts, pins := .reset, trace := s.trace ++ [.pinsReset] }))

/-- 40 R104, R105, with the fault each raises in the wrong carrier state. -/
def Obligations.GapMicroOps : Prop :=
  ∀ (s : State) (rest : List MicroOp) (ts : List Turn),
    (s.blockMoves .pause rest ts → step s = .next (settle .pause s
      (if s.carrier = .running then
        { s with pending := rest, turns := ts, carrier := .paused, trace := s.trace ++ [.pause] }
      else raiseFault .carrierState { s with pending := rest, turns := ts })))
    ∧ (s.blockMoves .resume rest ts → step s = .next (settle .resume s
      (if s.carrier = .paused then
        { s with pending := rest, turns := ts, carrier := .running, trace := s.trace ++ [.resume] }
      else raiseFault .carrierState { s with pending := rest, turns := ts })))

/-- 40 R107: a delay changes the trace only, and records whether the carrier was running. -/
def Obligations.DelayMicroOp : Prop :=
  ∀ (s : State) (rest : List MicroOp) (ts : List Turn) (n : Nat), s.blockMoves (.delay n) rest ts →
    step s = .next (settle (.delay n) s { s with
      pending := rest, turns := ts, trace := s.trace ++ [.delay n (if s.carrier = .running then .on else .off)] })

/-- 40 R108, R109: the critical section's entry saves and disables, its exit restores. -/
def Obligations.MaskMicroOps : Prop :=
  ∀ (s : State) (rest : List MicroOp) (ts : List Turn),
    (s.blockMoves .maskEnter rest ts → step s = .next (settle .maskEnter s { s with
      pending := rest, turns := ts, savedMask := s.gmask, gmask := true, inSession := true,
      trace := s.trace ++ [.mask s.gmask] }))
    ∧ (s.blockMoves .maskExit rest ts → step s = .next (settle .maskExit s { s with
      pending := rest, turns := ts, gmask := s.savedMask, inSession := false,
      trace := s.trace ++ [.unmask s.savedMask] }))

/-- 40 R110, R111: CheckPage has no effect for the pages 0 and 1 and raises INVALID_PAGE for every other; SetPhase
writes the phase and the block number and emits nothing. -/
def Obligations.CheckAndPhaseMicroOps : Prop :=
  ∀ (s : State) (rest : List MicroOp) (ts : List Turn) (p : BitVec 8) (ph : Phase) (i : BitVec 3),
    (s.blockMoves (.checkPage p) rest ts → (p = 0#8 ∨ p = 1#8) →
      step s = .next (settle (.checkPage p) s { s with pending := rest, turns := ts }))
    ∧ (s.blockMoves (.checkPage p) rest ts → p ≠ 0#8 → p ≠ 1#8 →
      step s = .next (settle (.checkPage p) s (raiseFault .invalidPage { s with pending := rest, turns := ts })))
    ∧ (s.blockMoves (.setPhase ph i) rest ts →
      step s = .next (settle (.setPhase ph i) s { s with pending := rest, turns := ts, phase := ph, dblk := i }))

/-- 40 R113: an idle block has no step; its turn passes (log 1). -/
def Obligations.IdleBlockHasNoStep : Prop :=
  ∀ (s : State) (ts : List Turn), s.turns = .agent .block :: ts → s.pending = [] →
    step s = .next { s with turns := ts }

/-- 40 R114, 10 R36, with the model's clock and free payload (log 6, log 10): what a micro-operation does
beside its rule. A delay of `n` takes at least `8 n` µs, and at most JITTER_MASKED more while the interrupts are
masked; the payload is kept until the block is idle or a session ends, and never exceeds 7 words after that. -/
def Obligations.MicroOpTimeAndPayload : Prop :=
  ∀ (op : MicroOp) (s t : State),
    t.agrees (settle op s t)
    ∧ s.wallMicros ≤ (settle op s t).wallMicros
    ∧ (∀ n, op = .delay n → s.wallMicros + n * 8 ≤ (settle op s t).wallMicros
        ∧ (s.gmask = true → (settle op s t).wallMicros ≤ s.wallMicros + n * 8 + Config.jitterMasked))
    ∧ (t.pending ≠ [] → (s.inSession = false ∨ t.inSession = true) → (settle op s t).payload = t.payload)
    ∧ (t.payload.length ≤ 7 → (settle op s t).payload.length ≤ 7)

/-! The commands' own effects: acceptance, and the run of the expansion to its end. -/

/-- 40 R120: CARRIER_START on a ready block with the carrier stopped (the duty 1/2 is presumed, log 17). -/
def Obligations.CarrierStartCompletes : Prop :=
  ∀ s : State, s.ready → s.carrier = .stopped →
    exec .carrierStart s = .next { s with pending := [.start], cmdLatch := 0x0100000000000000#64 }
    ∧ (s.turns = [] → runsTo 1 { s with pending := [.start], cmdLatch := 0x0100000000000000#64 }
        { s with
          pending := [], cmdLatch := 0x0100000000000000#64, carrier := .running, pins := .configured,
          trace := s.trace ++ [.start 125000 ⟨1, 2⟩] })

/-- 40 R121: CARRIER_STOP on a ready block, in every carrier state. -/
def Obligations.CarrierStopCompletes : Prop :=
  ∀ s : State, s.ready →
    exec .carrierStop s = .next { s with pending := [.stop, .pinsReset], cmdLatch := 0x0200000000000000#64 }
    ∧ (s.turns = [] → runsTo 2 { s with pending := [.stop, .pinsReset], cmdLatch := 0x0200000000000000#64 }
        { s with
          pending := [], cmdLatch := 0x0200000000000000#64, carrier := .stopped, pins := .reset,
          trace := s.trace ++ [.stop, .pinsReset] })

/-- 41 R140, R141: WRITE_BIT on a ready block with the carrier running. -/
def Obligations.WriteBitCompletes : Prop :=
  ∀ (s : State) (v : Bool), s.ready → s.carrier = .running →
    exec (.writeBit v) s = .next { s with
      pending := [.delay (if v then Config.timing.data1 else Config.timing.data0), .pause,
        .delay Config.timing.writeGap, .resume],
      cmdLatch := wordWriteBit v }
    ∧ (s.turns = [] → ∀ a, exec (.writeBit v) s = .next a → runsTo 4 a
        { s with
          cmdLatch := wordWriteBit v,
          trace := s.trace ++ [.delay (if v then Config.timing.data1 else Config.timing.data0) .on, .pause,
            .delay Config.timing.writeGap .off, .resume] })

/-- 41 R142, R143: WRITE_BYTE on a ready block with the carrier running puts eight cells on air, bit 0
first. -/
def Obligations.WriteByteCompletes : Prop :=
  ∀ (s : State) (b : BitVec 8), s.ready → s.carrier = .running →
    ∃ a, exec (.writeByte b) s = .next a
      ∧ a = { s with
          pending := bitx Config.timing (b.getLsbD 0) ++ bitx Config.timing (b.getLsbD 1)
            ++ bitx Config.timing (b.getLsbD 2) ++ bitx Config.timing (b.getLsbD 3)
            ++ bitx Config.timing (b.getLsbD 4) ++ bitx Config.timing (b.getLsbD 5)
            ++ bitx Config.timing (b.getLsbD 6) ++ bitx Config.timing (b.getLsbD 7),
          cmdLatch := wordWriteByte b }
      ∧ a.pending.length = 32
      ∧ (s.turns = [] → runsTo 32 a
          { s with
            cmdLatch := wordWriteByte b,
            trace := s.trace ++ cellsEvents Config.timing
              [b.getLsbD 0, b.getLsbD 1, b.getLsbD 2, b.getLsbD 3, b.getLsbD 4, b.getLsbD 5, b.getLsbD 6,
               b.getLsbD 7] })

/-- 41 R144, R145: WRITE_GAP on a ready block with the carrier running, with the duration unwrapped. -/
def Obligations.WriteGapCompletes : Prop :=
  ∀ (s : State) (d : BitVec 32), s.ready → s.carrier = .running →
    exec (.writeGap d) s = .next { s with
      pending := [.pause, .delay d.toNat, .resume], cmdLatch := wordWriteGap d }
    ∧ (s.turns = [] → ∀ a, exec (.writeGap d) s = .next a → runsTo 3 a
        { s with
          cmdLatch := wordWriteGap d,
          trace := s.trace ++ [.pause, .delay d.toNat .off, .resume] })

/-- 42 R165, R166: WRITE_RESET on a ready block with the carrier running loads the reset sequence and puts a start gap and
the cells of `10` on air. -/
def Obligations.WriteResetCompletes : Prop :=
  ∀ s : State, s.ready → s.carrier = .running →
    exec .writeReset s = .next { s with
      pending := gapx Config.timing.startGap ++ bitx Config.timing true ++ bitx Config.timing false,
      cmdLatch := 0x1300000000000000#64 }
    ∧ (s.turns = [] → ∀ a, exec .writeReset s = .next a → runsTo 11 a
        { s with
          cmdLatch := 0x1300000000000000#64,
          trace := s.trace ++ gapEvents Config.timing.startGap ++ cellEvents Config.timing true
            ++ cellEvents Config.timing false })

/-- 42 R162, R163: WRITE_BLOCK on a ready block with the carrier running loads the block write of its operands, and on
page 0 or 1 its 170 micro-operations put it on air: wait, start gap, opcode, lock, data and address MSB first,
programming delay, wait, reset sequence. -/
def Obligations.WriteBlockCompletes : Prop :=
  ∀ (s : State) (page : BitVec 8) (lock : Bool) (addr : BitVec 3) (data : DataWord),
    s.ready → s.carrier = .running →
    exec (.writeBlock page lock addr data) s = .next { s with
      pending := blkx Config.timing page addr lock data, cmdLatch := wordWriteBlock page lock addr data }
    ∧ ((page = 0#8 ∨ page = 1#8) → s.turns = [] →
        ∀ a, exec (.writeBlock page lock addr data) s = .next a → runsTo 170 a
          { s with
            cmdLatch := wordWriteBlock page lock addr data,
            trace := s.trace ++ blockEvents Config.timing (decide (page = 1#8)) lock data addr })

/-- 42 R161: WRITE_BLOCK on another page is accepted, faults at its first micro-operation and emits nothing of
the block write. -/
def Obligations.WriteBlockInvalidPageFaults : Prop :=
  ∀ (s : State) (page : BitVec 8) (lock : Bool) (addr : BitVec 3) (data : DataWord),
    s.ready → s.carrier = .running → s.inSession = false → page ≠ 0#8 → page ≠ 1#8 →
    ∃ a, exec (.writeBlock page lock addr data) s = .next a ∧ a.fault = .none ∧ a.trace = s.trace
      ∧ (s.turns = [] → runsTo 4 a
          { s with
            fault := .invalidPage, carrier := .stopped, pins := .reset, phase := .idle, dblk := 0#3,
            cmdLatch := wordWriteBlock page lock addr data,
            trace := s.trace ++ [.fault .invalidPage, .stop, .pinsReset] })

/-- 43 R192, 60 R235 checks 3 to 5: WRITE_FORMAT on a ready block answers the first failing check in the spec's
order, and else loads the session's expansion and the encoder's words. -/
def Obligations.WriteFormatChecksInOrder : Prop :=
  ∀ (s : State) (fmt : BitVec 8) (idlen : BitVec 4) (id : BitVec 40), s.ready →
    exec (.writeFormat fmt idlen id) s = .next (
      match Config.formats.find? (fun F => F.tag == fmt) with
      | none => raiseFault .badFormat s
      | some F =>
        if idlen.toNat ≠ F.idBytes then raiseFault .badIdLength s
        else if ∃ k : Fin 5, idlen.toNat ≤ k.val ∧ id.extractLsb' (8 * k.val) 8 ≠ 0#8 then
          raiseFault .reservedNonzero s
        else if s.carrier ≠ .stopped then raiseFault .carrierState s
        else
          let w := F.encode ((List.range idlen.toNat).map fun k => id.extractLsb' (8 * k) 8)
          if w.length ≠ F.nwords then raiseFault .encoderContract s
          else { s with
            pending := fmtx Config.timing F w, payload := w, cmdLatch := wordWriteFormat fmt idlen id })

/-- 43 R192, R193: a session whose checks pass, on a valid data page, runs to its end: carrier on, mask, the
configuration block, the data blocks in ascending order, the final reset, mask restored, carrier off (the duty
1/2 of the start event is presumed, log 17). -/
def Obligations.WriteFormatCompletes : Prop :=
  ∀ (s : State) (fmt : BitVec 8) (idlen : BitVec 4) (id : BitVec 40) (F : FormatDescriptor) (w : List DataWord),
    s.ready → s.carrier = .stopped → s.inSession = false → Config.lookup fmt = some F →
    idlen.toNat = F.idBytes → idTailZero idlen id = true → w = F.encode (idBytes idlen id) →
    w.length = F.nwords → (F.dataPage = 0#8 ∨ F.dataPage = 1#8) →
    exec (.writeFormat fmt idlen id) s = .next { s with
        pending := fmtx Config.timing F w, payload := w, cmdLatch := wordWriteFormat fmt idlen id }
      ∧ (fmtx Config.timing F w).length = 191 + 171 * w.length
      ∧ (s.turns = [] → ∀ a, exec (.writeFormat fmt idlen id) s = .next a → runsTo (191 + 171 * w.length) a
          { s with
            pins := .reset, savedMask := s.gmask, phase := .idle, dblk := 0#3,
            cmdLatch := wordWriteFormat fmt idlen id,
            trace := s.trace ++ [.start 125000 ⟨1, 2⟩, .mask s.gmask]
              ++ blockEvents Config.timing false false F.config 0#3
              ++ ((List.range w.length).flatMap fun k =>
                  blockEvents Config.timing (decide (F.dataPage = 1#8)) false (w.getD k 0) (BitVec.ofNat 3 (k + 1)))
              ++ frameEvents Config.timing [true, false]
              ++ [.unmask s.gmask, .stop, .pinsReset] })

/-- 43 R203, 10 R24, with the start event's duty of log 17: an EM session on a ready block with the carrier stopped loads
the session of the encoder's two words and runs to its end: three block writes (configuration 0x60148040, low half, high
half of the encoder's word), the final reset, 523 events. -/
def Obligations.WriteEmCompletes : Prop :=
  ∀ (s : State) (id : BitVec 40) (p : BitVec 64) (evs : List Event),
    s.ready → s.carrier = .stopped → s.inSession = false →
    p = Config.encEm [id.extractLsb' 0 8, id.extractLsb' 8 8, id.extractLsb' 16 8, id.extractLsb' 24 8,
      id.extractLsb' 32 8] →
    evs = [.start 125000 ⟨1, 2⟩, .mask s.gmask]
      ++ blockEvents Config.timing false false 0x60148040#32 0#3
      ++ blockEvents Config.timing false false (p.extractLsb' 0 32) 1#3
      ++ blockEvents Config.timing false false (p.extractLsb' 32 32) 2#3
      ++ frameEvents Config.timing [true, false]
      ++ [.unmask s.gmask, .stop, .pinsReset] →
    exec (.writeEm id) s = .next { s with
        pending := fmtx Config.timing Config.em [p.extractLsb' 0 32, p.extractLsb' 32 32],
        payload := [p.extractLsb' 0 32, p.extractLsb' 32 32], cmdLatch := wordWriteEm id }
      ∧ evs.length = 523
      ∧ (s.turns = [] → ∀ a, exec (.writeEm id) s = .next a → runsTo 533 a
          { s with
            pins := .reset, savedMask := s.gmask, phase := .idle, dblk := 0#3,
            cmdLatch := wordWriteEm id, trace := s.trace ++ evs })

/-- 43 R195, R204, 10 R25: a HID session on a ready block with the carrier stopped. The encoder is open: where it
gives three words, four block writes in ascending order and the final reset, 692 events (the start event's duty of
log 17); else ENCODER_CONTRACT. -/
def Obligations.WriteHidCompletes : Prop :=
  ∀ (s : State) (id : BitVec 24), s.ready → s.carrier = .stopped → s.inSession = false →
    ∃ a, exec (.writeHid id) s = .next a
      ∧ match Config.encHid [id.extractLsb' 0 8, id.extractLsb' 8 8, id.extractLsb' 16 8] with
        | [w0, w1, w2] =>
          a = { s with
              pending := fmtx Config.timing Config.hid [w0, w1, w2], payload := [w0, w1, w2],
              cmdLatch := wordWriteHid id }
          ∧ (s.turns = [] → ∃ evs : List Event,
            evs = [.start 125000 ⟨1, 2⟩, .mask s.gmask]
                ++ blockEvents Config.timing false false 0x00107060#32 0#3
                ++ blockEvents Config.timing false false w0 1#3
                ++ blockEvents Config.timing false false w1 2#3
                ++ blockEvents Config.timing false false w2 3#3
                ++ frameEvents Config.timing [true, false]
                ++ [.unmask s.gmask, .stop, .pinsReset]
            ∧ evs.length = 692
            ∧ runsTo 704 a
              { s with
                pins := .reset, savedMask := s.gmask, phase := .idle, dblk := 0#3,
                cmdLatch := wordWriteHid id, trace := s.trace ++ evs })
        | _ => a = raiseFault .encoderContract s

/-- 43 R192 to R195: a session of any descriptor, whatever table holds it: a WRITE_FORMAT whose checks pass loads the
session, and its run emits the configuration block, the data blocks in ascending order and the final reset (the
start event's duty is presumed, log 17). -/
def Obligations.DescriptorSessionCompletes : Prop :=
  ∀ (s : State) (F : FormatDescriptor) (word : CommandWord) (idlen : BitVec 4) (id : BitVec 40) (w : List DataWord),
    s.ready → s.carrier = .stopped → s.inSession = false → idlen.toNat = F.idBytes → idTailZero idlen id = true →
    F.encode (idBytes idlen id) = w → w.length = F.nwords → (F.dataPage = 0#8 ∨ F.dataPage = 1#8) →
    issue (descriptorAcceptance F word idlen id s) s
        = { s with pending := fmtx Config.timing F w, payload := w, cmdLatch := word }
      ∧ (s.turns = [] → runsTo (191 + 171 * w.length)
          { s with pending := fmtx Config.timing F w, payload := w, cmdLatch := word }
          { s with
            pins := .reset, savedMask := s.gmask, phase := .idle, dblk := 0#3, cmdLatch := word,
            trace := s.trace ++ [.start 125000 ⟨1, 2⟩, .mask s.gmask]
              ++ blockEvents Config.timing false false F.config 0#3
              ++ ((List.range w.length).flatMap fun k =>
                  blockEvents Config.timing (decide (F.dataPage = 1#8)) false (w.getD k 0) (BitVec.ofNat 3 (k + 1)))
              ++ frameEvents Config.timing [true, false]
              ++ [.unmask s.gmask, .stop, .pinsReset] })

/-- 30 R89: the pseudo-instructions are WRITE_FORMAT 0, 5 and WRITE_FORMAT 1, 3 with the bytes above zero, in
word and in effect. -/
def Obligations.PseudoInstructionsAreWriteFormat : Prop :=
  (∀ (id : BitVec 40) (s : State), encode (.writeEm id) = encode (.writeFormat 0#8 5#4 id)
      ∧ exec (.writeEm id) s = exec (.writeFormat 0#8 5#4 id) s)
  ∧ (∀ (id : BitVec 24) (s : State), encode (.writeHid id) = encode (.writeFormat 1#8 3#4 (id.setWidth 40))
      ∧ exec (.writeHid id) s = exec (.writeFormat 1#8 3#4 (id.setWidth 40)) s)

/-- 30 R84 to R86, log 3: the on-air frames on a ready block with the carrier running. A write frame goes on air in its block
write: wait, start gap, the frame's bits in emission order, programming delay, wait, reset sequence; a reset frame in its
reset sequence: start gap, then its bits. The command that emits the frame is latched. -/
def Obligations.AirFramesComplete : Prop :=
  ∀ s : State, s.ready → s.carrier = .running →
    (∀ (page1 lock : Bool) (data : DataWord) (addr : BitVec 3) (i : Instr) (w : CommandWord) (f : BitVec 38),
      ((page1 = false ∧ i = .airWritePage0 lock data addr ∧ f = writeFrame 0b10#2 lock data addr
          ∧ w = wordWriteBlock 0#8 lock addr data)
        ∨ (page1 = true ∧ i = .airWritePage1 lock data addr ∧ f = writeFrame 0b11#2 lock data addr
          ∧ w = wordWriteBlock 1#8 lock addr data)) →
      exec i s = .next { s with
        pending := [.checkPage (if page1 then 1#8 else 0#8), .delay Config.timing.waitTime] ++ framex Config.timing f
          ++ [.delay Config.timing.program, .delay Config.timing.waitTime] ++ framex Config.timing resetFrame,
        cmdLatch := w }
      ∧ (s.turns = [] → ∀ a, exec i s = .next a → runsTo 170 a { s with
          cmdLatch := w,
          trace := s.trace ++ [.delay Config.timing.waitTime .on]
            ++ frameEvents Config.timing (writeFrameBits page1 lock data addr)
            ++ [.delay Config.timing.program .on, .delay Config.timing.waitTime .on]
            ++ frameEvents Config.timing [true, false] }))
    ∧ exec .airReset s = .next { s with
        pending := framex Config.timing resetFrame, cmdLatch := 0x1300000000000000#64 }
    ∧ (s.turns = [] → ∀ a, exec .airReset s = .next a → runsTo 11 a { s with
        cmdLatch := 0x1300000000000000#64, trace := s.trace ++ frameEvents Config.timing [true, false] })

/-- 30 R86, 60 R235 check 4, log 3: a frame whose command finds a ready block's carrier not running raises CARRIER_STATE. -/
def Obligations.AirFramesNeedTheCarrier : Prop :=
  ∀ s : State, s.ready → s.carrier ≠ .running →
    (∀ (lock : Bool) (data : DataWord) (addr : BitVec 3),
      exec (.airWritePage0 lock data addr) s = .next (raiseFault .carrierState s)
      ∧ exec (.airWritePage1 lock data addr) s = .next (raiseFault .carrierState s))
    ∧ exec .airReset s = .next (raiseFault .carrierState s)

/-! The session. -/

/-- 43 R197: a session whose data page is neither 0 nor 1 emits its configuration block in full, faults at the first
data block, restores the mask and stops the carrier (the start event's duty is presumed, log 17). -/
def Obligations.SessionInvalidPageTearsDown : Prop :=
  ∀ (s : State) (F : FormatDescriptor) (w0 : DataWord) (ws : List DataWord),
    s.fault = .none → s.carrier = .stopped → s.inSession = false → s.turns = [] →
    s.pending = fmtx Config.timing F (w0 :: ws) → F.dataPage ≠ 0#8 → F.dataPage ≠ 1#8 →
      runsTo 179 s { s with
        pending := [], fault := .invalidPage, pins := .reset, savedMask := s.gmask, phase := .idle, dblk := 0#3,
        trace := s.trace ++ [.start 125000 ⟨1, 2⟩, .mask s.gmask]
          ++ blockEvents Config.timing false false F.config 0#3
          ++ [.fault .invalidPage, .unmask s.gmask, .stop, .pinsReset] }

/-- 43 R199: a session's expansion enters and leaves the critical section exactly once. -/
def Obligations.SessionMasksOnce : Prop :=
  ∀ (t : TimingProfile) (F : FormatDescriptor) (w : List DataWord),
    (fmtx t F w).count .maskEnter = 1 ∧ (fmtx t F w).count .maskExit = 1

/-- 43 R194, R198: the phases of a session, with the data blocks in strictly ascending order. -/
def Obligations.SessionPhaseSequence : Prop :=
  ∀ (t : TimingProfile) (F : FormatDescriptor) (w : List DataWord),
    (fmtx t F w).filterMap phaseSet
      = [(.carrierStarted, 0#3), (.configBlockSent, 0#3)]
        ++ (List.range w.length).map (fun k => (.dataBlockSent, BitVec.ofNat 3 (k + 1)))
        ++ [(.resetSent, 0#3), (.carrierStopped, 0#3), (.idle, 0#3)]

/-! Expansions, frames and durations. -/

/-- 30 R84: the write frame as a number, read most significant bit first, is opcode, lock bit, data, address; the
reset frame (30 R85) is `10`. -/
def Obligations.FrameBitsInEmissionOrder : Prop :=
  (∀ (lock : Bool) (data : DataWord) (addr : BitVec 3),
    msbFirst (writeFrame 0b10#2 lock data addr) = writeFrameBits false lock data addr
    ∧ msbFirst (writeFrame 0b11#2 lock data addr) = writeFrameBits true lock data addr)
  ∧ msbFirst resetFrame = [true, false]

/-- 42 R163, 30 R84 to R86: a block write on page 0 or 1 is the page check, the wait, the framed write frame, the
programming delay, the wait and the framed reset frame: 170 micro-operations. -/
def Obligations.BlockWriteIsTwoFrames : Prop :=
  ∀ (t : TimingProfile) (a : BitVec 3) (l : Bool) (d : DataWord),
    blkx t 0#8 a l d = [.checkPage 0#8, .delay t.waitTime] ++ framex t (writeFrame 0b10#2 l d a)
        ++ [.delay t.program, .delay t.waitTime] ++ framex t resetFrame
    ∧ blkx t 1#8 a l d = [.checkPage 1#8, .delay t.waitTime] ++ framex t (writeFrame 0b11#2 l d a)
        ++ [.delay t.program, .delay t.waitTime] ++ framex t resetFrame
    ∧ (blkx t 0#8 a l d).length = 170

/-- 42 R164: the nominal duration of a block write on page 0 or 1, for every timing profile. -/
def Obligations.BlockWriteDuration : Prop :=
  ∀ (t : TimingProfile) (p : BitVec 8) (a : BitVec 3) (l : Bool) (d : DataWord), (p = 0#8 ∨ p = 1#8) →
    clocks (blkx t p a l d) = 2 * t.waitTime + 2 * t.startGap + t.program + 40 * t.writeGap
      + (1 + p.toNat + l.toNat + popcount d + popcount a + 1) * t.data1
      + (40 - (1 + p.toNat + l.toNat + popcount d + popcount a + 1)) * t.data0

/-- 43 R205: the nominal duration of a session is the sum of its block writes and its final reset. -/
def Obligations.SessionDuration : Prop :=
  ∀ (t : TimingProfile) (F : FormatDescriptor) (w : List DataWord), (F.dataPage = 0#8 ∨ F.dataPage = 1#8) →
    clocks (fmtx t F w) = blockClocks t 0#8 0#3 false F.config
      + ((List.range w.length).map fun k =>
          blockClocks t F.dataPage (BitVec.ofNat 3 (k + 1)) false (w.getD k 0)).sum
      + resetClocks t

/-! The agents. -/

/-- 60 R246, R247, R249, 43 R196: an agent without a step does nothing: the host thread's issue while its own
command is in flight, its mask write while anything is pending, the handlers while the mask is set, and any
issue inside a session. -/
def Obligations.BlockedAgentsDoNothing : Prop :=
  ∀ (s : State) (ts : List Turn),
    (∀ w q, s.turns = .agent .host :: ts → s.hostQueue = .issue w :: q → s.issuer = .host → s.pending ≠ [] →
      step s = .next { s with turns := ts })
    ∧ (∀ w q, s.turns = .agent .host :: ts → s.hostQueue = .issue w :: q → s.inSession = true →
      step s = .next { s with turns := ts })
    ∧ (∀ b q, s.turns = .agent .host :: ts → s.hostQueue = .writeMask b :: q → s.pending ≠ [] →
      step s = .next { s with turns := ts })
    ∧ (s.turns = .agent .handler :: ts → s.gmask = true → step s = .next { s with turns := ts })

/-- 60 R249: the host thread's mask write, at its turn or by default, while nothing is pending, writes gmask and nothing
else. -/
def Obligations.HostWritesMaskWhenIdle : Prop :=
  ∀ (s : State) (ts : List Turn) (b : Bool) (q : List HostAction),
    s.hostMoves (.writeMask b) q ts → s.pending = [] →
      step s = .next { s with turns := ts, hostQueue := q, gmask := b }

/-- 10 R28, 60 R249: only MaskEnter, MaskExit, the host thread's mask write on an idle block and the system reset change
gmask, each to the value it has there. -/
def Obligations.OnlyMaskOperationsChangeGmask : Prop :=
  ∀ s t : State, step s = .next t →
    t.gmask = s.gmask
    ∨ (∃ rest, s.pending = .maskEnter :: rest ∧ t.gmask = true)
    ∨ (∃ rest, s.pending = .maskExit :: rest ∧ t.gmask = s.savedMask)
    ∨ (∃ b q, s.hostQueue = .writeMask b :: q ∧ s.pending = [] ∧ t.gmask = b)
    ∨ (∃ ts, s.turns = .systemReset :: ts ∧ t.gmask = Config.gmaskAtReset)

/-- 10 R34: only SetPhase and the system reset change the phase and the data block number. -/
def Obligations.OnlySetPhaseChangesPhase : Prop :=
  ∀ s t : State, step s = .next t →
    (t.phase = s.phase ∧ t.dblk = s.dblk)
    ∨ (∃ ph i rest, s.pending = .setPhase ph i :: rest ∧ t.phase = ph ∧ t.dblk = i)
    ∨ (∃ ts, s.turns = .systemReset :: ts ∧ t.phase = .idle ∧ t.dblk = 0#3)

/-- 40 R113, 60 R245, R255: outside a command only the system reset and an issue of the host thread or the handlers change
the block's state; no other step of any agent does. -/
def Obligations.IdleBlockChangesOnlyByIssueOrReset : Prop :=
  ∀ s t : State, s.pending = [] → step s = .next t →
    (t.carrier = s.carrier ∧ t.pins = s.pins ∧ t.inSession = s.inSession ∧ t.savedMask = s.savedMask
      ∧ t.pending = [] ∧ t.fault = s.fault ∧ t.phase = s.phase ∧ t.dblk = s.dblk ∧ t.cmdLatch = s.cmdLatch
      ∧ t.payload = s.payload ∧ t.trace = s.trace)
    ∨ (∃ w q, s.hostQueue = .issue w :: q ∧ t.hostQueue = q)
    ∨ (∃ w q, s.handlerQueue = .issue w :: q ∧ t.handlerQueue = q)
    ∨ (∃ ts, s.turns = .systemReset :: ts)

/-- 10 R33: no step but the system reset removes or rewrites an event. -/
def Obligations.TraceIsAppendOnly : Prop :=
  ∀ s t : State, step s = .next t → (∃ ts, s.turns = .systemReset :: ts) ∨ s.trace <+: t.trace

/-- 10 R32: a fault code, once latched, stays until the system reset, which clears it. -/
def Obligations.FaultCodeIsSticky : Prop :=
  ∀ s t : State, step s = .next t → s.fault ≠ .none →
    ((∃ ts, s.turns = .systemReset :: ts) → t.fault = .none)
    ∧ ((¬ ∃ ts, s.turns = .systemReset :: ts) → t.fault = s.fault)

/-- 10 R31, 40 R113: with no other turn asked for, a busy block is idle after at most its pending list and one
teardown. -/
def Obligations.BusyBlockBecomesIdle : Prop :=
  ∀ s : State, s.turns = [] →
    ∃ n t, n ≤ s.pending.length + 4 ∧ steps n s = .next t ∧ t.pending = []

/-! Invariants. -/

/-- 10 R41: every step, of every agent, keeps the invariant. -/
def Obligations.StepKeepsInvariant : Prop :=
  ∀ s t : State, StateInvariant s → step s = .next t → StateInvariant t

/-- 10 R41: the invariant holds at reset. -/
def Obligations.ResetHasInvariant : Prop := StateInvariant State.reset

/-- 10 R41 (a) to (d), 40 R104, R105: what the invariant says. A paused carrier of an unhalted block is inside a
gap, with its Resume pending; a Pause finds the carrier running and a Resume finds it paused, so that neither can
raise its fault; a session has the mask set and the carrier on; a halted idle block has the carrier stopped. -/
def Obligations.InvariantGivesStateInvariants : Prop :=
  ∀ s : State, StateInvariant s →
    (s.carrier = .paused → s.fault = .none →
      ∃ (ds : List Nat) (rest : List MicroOp), s.pending = ds.map MicroOp.delay ++ .resume :: rest)
    ∧ (∀ rest, s.pending = .pause :: rest → s.carrier = .running)
    ∧ (∀ rest, s.pending = .resume :: rest → s.carrier = .paused)
    ∧ (∀ rest, s.pending = .start :: rest → s.carrier = .stopped)
    ∧ (s.inSession = true → s.gmask = true ∧ s.carrier ≠ .stopped ∧ s.pending ≠ [])
    ∧ (s.pending = [] → s.fault ≠ .none → s.carrier = .stopped)

/-! Encodings and configuration. -/

/-- 30 R72 to R79, R84, R85: decoding the encoding of a well-formed instruction gives it back, for every operand. -/
def Obligations.DecodeEncodeAgree : Prop :=
  ∀ i : Instr, i.wf = true → decode (encode i) = .instr i

/-- 30 R70, R81: a word that decodes is the encoding of a well-formed instruction: no bit of it is dropped. -/
def Obligations.DecodedWordReencodes : Prop :=
  ∀ (p : PortWord) (i : Instr), decode p = .instr i → encode i = p ∧ i.wf = true

/-- 30 R90 and the opcode table: words written out from the encodings decode to their instructions. -/
def Obligations.WorkedEncodingsDecode : Prop :=
  decodeTableWord 64 0x0100000000000000 = some .carrierStart
  ∧ decodeTableWord 64 0x20000100DEADBEEF = some (.writeBlock 0 false 1 0xDEADBEEF)
  ∧ decodeTableWord 64 0x20010F0000000000 = some (.writeBlock 1 true 7 0)
  ∧ decodeTableWord 64 0x11000000000000B0 = some (.writeByte 0xB0)
  ∧ decodeTableWord 64 0x1000000000000001 = some (.writeBit true)
  ∧ decodeTableWord 64 0x120000000000001E = some (.writeGap 30)
  ∧ decodeTableWord 64 0x3000508967452301 = some (.writeEm 0x8967452301)
  ∧ decodeTableWord 64 0x3001300000563412 = some (.writeHid 0x563412)
  ∧ decodeTableWord 40 0x26F56DF779 = some (.airWritePage0 false 0xDEADBEEF 1)
  ∧ decodeTableWord 40 0x3800000007 = some (.airWritePage1 true 0 7)
  ∧ decodeTableWord 8 2 = some .airReset

/-- 10 R22, R26: the machine's configuration is well formed, whatever its open parameters are. -/
def Obligations.ConfigurationIsWellFormed : Prop :=
  Config.timing.wf = true ∧ formatsWf Config.formats = true
    ∧ (∀ fmt F, Config.lookup fmt = some F → F ∈ Config.formats ∧ F.tag = fmt)

/-- 10 R24, R25: the built-in descriptors the table answers for the tags 0 and 1. -/
def Obligations.BuiltInDescriptors : Prop :=
  (∃ F, Config.lookup 0#8 = some F ∧ F.tag = 0#8 ∧ F.idBytes = 5 ∧ F.nwords = 2 ∧ F.config = 0x60148040#32
    ∧ F.dataPage = 0#8 ∧ ∀ id, F.encode id = [(Config.encEm id).extractLsb' 0 32, (Config.encEm id).extractLsb' 32 32])
  ∧ (∃ F, Config.lookup 1#8 = some F ∧ F.tag = 1#8 ∧ F.idBytes = 3 ∧ F.nwords = 3 ∧ F.config = 0x00107060#32
    ∧ F.dataPage = 0#8 ∧ ∀ id, F.encode id = Config.encHid id)
end

