-- ==== Sys2Proof/Laws/Bits.lean ====
section
/-! SUPPORT. Fields of concatenated words: what the decoder reads back of what the encoder wrote. -/

namespace Sys2Proof

/-- A field above the lower part of a concatenation is a field of the upper part. -/
theorem extract_append_high {a b : Nat} (x : BitVec a) (y : BitVec b) {lo n : Nat} (h : b ≤ lo) :
    (x ++ y).extractLsb' lo n = x.extractLsb' (lo - b) n := by
  ext i hi
  simp only [BitVec.getElem_extractLsb', BitVec.getLsbD_append, show ¬ lo + i < b by omega, if_false]
  congr 1
  omega

/-- A field within the lower part of a concatenation is a field of the lower part. -/
theorem extract_append_low {a b : Nat} (x : BitVec a) (y : BitVec b) {lo n : Nat} (h : lo + n ≤ b) :
    (x ++ y).extractLsb' lo n = y.extractLsb' lo n := by
  ext i hi
  simp only [BitVec.getElem_extractLsb', BitVec.getLsbD_append, show lo + i < b by omega, if_true]

/-- A whole value is its own field. -/
theorem extract_whole {n : Nat} (x : BitVec n) : x.extractLsb' 0 n = x := by
  ext i hi
  simp

theorem getLsbD_append_high {a b : Nat} (x : BitVec a) (y : BitVec b) {i : Nat} (h : b ≤ i) :
    (x ++ y).getLsbD i = x.getLsbD (i - b) := by
  rw [BitVec.getLsbD_append, if_neg (by omega)]

theorem getLsbD_append_low {a b : Nat} (x : BitVec a) (y : BitVec b) {i : Nat} (h : i < b) :
    (x ++ y).getLsbD i = y.getLsbD i := by
  rw [BitVec.getLsbD_append, if_pos h]

/-! The same for the decoder's `field` and `flag`. -/

theorem field_append_high {a b : Nat} (x : BitVec a) (y : BitVec b) {lo n : Nat} (h : b ≤ lo) :
    field (x ++ y) lo n = field x (lo - b) n := extract_append_high x y h

theorem field_append_low {a b : Nat} (x : BitVec a) (y : BitVec b) {lo n : Nat} (h : lo + n ≤ b) :
    field (x ++ y) lo n = field y lo n := extract_append_low x y h

theorem field_whole {n : Nat} (x : BitVec n) : field x 0 n = x := extract_whole x

theorem flag_append_high {a b : Nat} (x : BitVec a) (y : BitVec b) {i : Nat} (h : b ≤ i) :
    flag (x ++ y) i = flag x (i - b) := getLsbD_append_high x y h

theorem flag_append_low {a b : Nat} (x : BitVec a) (y : BitVec b) {i : Nat} (h : i < b) :
    flag (x ++ y) i = flag y i := getLsbD_append_low x y h

theorem flag_ofBool (b : Bool) : flag (BitVec.ofBool b) 0 = b := by
  cases b <;> rfl

theorem rowWord_eq_instr {w mask bits : CommandWord} {i j : Instr} :
    rowWord w mask bits i = .instr j ↔ w &&& mask = bits ∧ i = j := by
  unfold rowWord
  split <;> simp [*]

/-- Adjacent fields make one field. -/
theorem field_append_field {m : Nat} (w : BitVec m) (lo a b : Nat) :
    field w (lo + b) a ++ field w lo b = field w lo (a + b) := by
  ext i hi
  simp only [field, BitVec.getElem_append, BitVec.getElem_extractLsb']
  split
  · rfl
  · congr 1
    omega

theorem ofBool_flag {m : Nat} (w : BitVec m) (i : Nat) : BitVec.ofBool (flag w i) = field w i 1 := by
  ext j hj
  have : j = 0 := by omega
  subst this
  simp [field, flag]

/-- Where the mask is all ones, a word that matches has the match's field. -/
theorem field_of_mask {w mask bits : CommandWord} (h : w &&& mask = bits) (lo n : Nat)
    (hm : field mask lo n = BitVec.allOnes n) : field w lo n = field bits lo n := by
  rw [← h]
  unfold field at *
  rw [BitVec.extractLsb'_and, hm]
  simp

theorem getLsbD_ofBool_zero (b : Bool) : (BitVec.ofBool b).getLsbD 0 = b := by
  cases b <;> rfl

end Sys2Proof
end

