-- ==== Sys2Proof/Laws/State.lean ====
section
/-! SUPPORT. One lemma per field per update of the state: what `emit`, `raiseFault`, `load`, `settle`,
`systemReset`, `readStatus` and `placeWord` leave in each field. -/

namespace Sys2Proof.Machine

@[simp] theorem State.emit_carrier (s : State) (ev : Event) :
    (s.emit ev).carrier = s.carrier := rfl
@[simp] theorem State.emit_pins (s : State) (ev : Event) :
    (s.emit ev).pins = s.pins := rfl
@[simp] theorem State.emit_gmask (s : State) (ev : Event) :
    (s.emit ev).gmask = s.gmask := rfl
@[simp] theorem State.emit_inSession (s : State) (ev : Event) :
    (s.emit ev).inSession = s.inSession := rfl
@[simp] theorem State.emit_savedMask (s : State) (ev : Event) :
    (s.emit ev).savedMask = s.savedMask := rfl
@[simp] theorem State.emit_pending (s : State) (ev : Event) :
    (s.emit ev).pending = s.pending := rfl
@[simp] theorem State.emit_fault (s : State) (ev : Event) :
    (s.emit ev).fault = s.fault := rfl
@[simp] theorem State.emit_phase (s : State) (ev : Event) :
    (s.emit ev).phase = s.phase := rfl
@[simp] theorem State.emit_dblk (s : State) (ev : Event) :
    (s.emit ev).dblk = s.dblk := rfl
@[simp] theorem State.emit_cmdLatch (s : State) (ev : Event) :
    (s.emit ev).cmdLatch = s.cmdLatch := rfl
@[simp] theorem State.emit_payload (s : State) (ev : Event) :
    (s.emit ev).payload = s.payload := rfl
@[simp] theorem State.emit_trace (s : State) (ev : Event) :
    (s.emit ev).trace = s.trace ++ [ev] := rfl
@[simp] theorem State.emit_issuer (s : State) (ev : Event) :
    (s.emit ev).issuer = s.issuer := rfl
@[simp] theorem State.emit_hostQueue (s : State) (ev : Event) :
    (s.emit ev).hostQueue = s.hostQueue := rfl
@[simp] theorem State.emit_handlerQueue (s : State) (ev : Event) :
    (s.emit ev).handlerQueue = s.handlerQueue := rfl
@[simp] theorem State.emit_turns (s : State) (ev : Event) :
    (s.emit ev).turns = s.turns := rfl
@[simp] theorem State.emit_statusOut (s : State) (ev : Event) :
    (s.emit ev).statusOut = s.statusOut := rfl
@[simp] theorem State.emit_wallMicros (s : State) (ev : Event) :
    (s.emit ev).wallMicros = s.wallMicros := rfl
@[simp] theorem State.emit_draws (s : State) (ev : Event) :
    (s.emit ev).draws = s.draws := rfl

@[simp] theorem raiseFault_carrier (c : FaultCode) (s : State) :
    (raiseFault c s).carrier = s.carrier := rfl
@[simp] theorem raiseFault_pins (c : FaultCode) (s : State) :
    (raiseFault c s).pins = s.pins := rfl
@[simp] theorem raiseFault_gmask (c : FaultCode) (s : State) :
    (raiseFault c s).gmask = s.gmask := rfl
@[simp] theorem raiseFault_inSession (c : FaultCode) (s : State) :
    (raiseFault c s).inSession = s.inSession := rfl
@[simp] theorem raiseFault_savedMask (c : FaultCode) (s : State) :
    (raiseFault c s).savedMask = s.savedMask := rfl
@[simp] theorem raiseFault_pending (c : FaultCode) (s : State) :
    (raiseFault c s).pending = teardown s := rfl
@[simp] theorem raiseFault_fault (c : FaultCode) (s : State) :
    (raiseFault c s).fault = latchFault s.fault c := rfl
@[simp] theorem raiseFault_phase (c : FaultCode) (s : State) :
    (raiseFault c s).phase = s.phase := rfl
@[simp] theorem raiseFault_dblk (c : FaultCode) (s : State) :
    (raiseFault c s).dblk = s.dblk := rfl
@[simp] theorem raiseFault_cmdLatch (c : FaultCode) (s : State) :
    (raiseFault c s).cmdLatch = s.cmdLatch := rfl
@[simp] theorem raiseFault_payload (c : FaultCode) (s : State) :
    (raiseFault c s).payload = s.payload := rfl
@[simp] theorem raiseFault_trace (c : FaultCode) (s : State) :
    (raiseFault c s).trace = s.trace ++ [.fault c] := rfl
@[simp] theorem raiseFault_issuer (c : FaultCode) (s : State) :
    (raiseFault c s).issuer = s.issuer := rfl
@[simp] theorem raiseFault_hostQueue (c : FaultCode) (s : State) :
    (raiseFault c s).hostQueue = s.hostQueue := rfl
@[simp] theorem raiseFault_handlerQueue (c : FaultCode) (s : State) :
    (raiseFault c s).handlerQueue = s.handlerQueue := rfl
@[simp] theorem raiseFault_turns (c : FaultCode) (s : State) :
    (raiseFault c s).turns = s.turns := rfl
@[simp] theorem raiseFault_statusOut (c : FaultCode) (s : State) :
    (raiseFault c s).statusOut = s.statusOut := rfl
@[simp] theorem raiseFault_wallMicros (c : FaultCode) (s : State) :
    (raiseFault c s).wallMicros = s.wallMicros := rfl
@[simp] theorem raiseFault_draws (c : FaultCode) (s : State) :
    (raiseFault c s).draws = s.draws := rfl

@[simp] theorem State.load_carrier (s : State) (e : Expansion) :
    (s.load e).carrier = s.carrier := rfl
@[simp] theorem State.load_pins (s : State) (e : Expansion) :
    (s.load e).pins = s.pins := rfl
@[simp] theorem State.load_gmask (s : State) (e : Expansion) :
    (s.load e).gmask = s.gmask := rfl
@[simp] theorem State.load_inSession (s : State) (e : Expansion) :
    (s.load e).inSession = s.inSession := rfl
@[simp] theorem State.load_savedMask (s : State) (e : Expansion) :
    (s.load e).savedMask = s.savedMask := rfl
@[simp] theorem State.load_pending (s : State) (e : Expansion) :
    (s.load e).pending = e.ops := rfl
@[simp] theorem State.load_fault (s : State) (e : Expansion) :
    (s.load e).fault = s.fault := rfl
@[simp] theorem State.load_phase (s : State) (e : Expansion) :
    (s.load e).phase = s.phase := rfl
@[simp] theorem State.load_dblk (s : State) (e : Expansion) :
    (s.load e).dblk = s.dblk := rfl
@[simp] theorem State.load_cmdLatch (s : State) (e : Expansion) :
    (s.load e).cmdLatch = e.latch := rfl
@[simp] theorem State.load_payload (s : State) (e : Expansion) :
    (s.load e).payload = e.payload.getD s.payload := rfl
@[simp] theorem State.load_trace (s : State) (e : Expansion) :
    (s.load e).trace = s.trace := rfl
@[simp] theorem State.load_issuer (s : State) (e : Expansion) :
    (s.load e).issuer = s.issuer := rfl
@[simp] theorem State.load_hostQueue (s : State) (e : Expansion) :
    (s.load e).hostQueue = s.hostQueue := rfl
@[simp] theorem State.load_handlerQueue (s : State) (e : Expansion) :
    (s.load e).handlerQueue = s.handlerQueue := rfl
@[simp] theorem State.load_turns (s : State) (e : Expansion) :
    (s.load e).turns = s.turns := rfl
@[simp] theorem State.load_statusOut (s : State) (e : Expansion) :
    (s.load e).statusOut = s.statusOut := rfl
@[simp] theorem State.load_wallMicros (s : State) (e : Expansion) :
    (s.load e).wallMicros = s.wallMicros := rfl
@[simp] theorem State.load_draws (s : State) (e : Expansion) :
    (s.load e).draws = s.draws := rfl

@[simp] theorem settle_carrier (op : MicroOp) (b s : State) :
    (settle op b s).carrier = s.carrier := rfl
@[simp] theorem settle_pins (op : MicroOp) (b s : State) :
    (settle op b s).pins = s.pins := rfl
@[simp] theorem settle_gmask (op : MicroOp) (b s : State) :
    (settle op b s).gmask = s.gmask := rfl
@[simp] theorem settle_inSession (op : MicroOp) (b s : State) :
    (settle op b s).inSession = s.inSession := rfl
@[simp] theorem settle_savedMask (op : MicroOp) (b s : State) :
    (settle op b s).savedMask = s.savedMask := rfl
@[simp] theorem settle_pending (op : MicroOp) (b s : State) :
    (settle op b s).pending = s.pending := rfl
@[simp] theorem settle_fault (op : MicroOp) (b s : State) :
    (settle op b s).fault = s.fault := rfl
@[simp] theorem settle_phase (op : MicroOp) (b s : State) :
    (settle op b s).phase = s.phase := rfl
@[simp] theorem settle_dblk (op : MicroOp) (b s : State) :
    (settle op b s).dblk = s.dblk := rfl
@[simp] theorem settle_cmdLatch (op : MicroOp) (b s : State) :
    (settle op b s).cmdLatch = s.cmdLatch := rfl
@[simp] theorem settle_payload (op : MicroOp) (b s : State) :
    (settle op b s).payload = if discardsPayload b s then (Config.freePayload b.draws).take 7 else s.payload := rfl
@[simp] theorem settle_trace (op : MicroOp) (b s : State) :
    (settle op b s).trace = s.trace := rfl
@[simp] theorem settle_issuer (op : MicroOp) (b s : State) :
    (settle op b s).issuer = s.issuer := rfl
@[simp] theorem settle_hostQueue (op : MicroOp) (b s : State) :
    (settle op b s).hostQueue = s.hostQueue := rfl
@[simp] theorem settle_handlerQueue (op : MicroOp) (b s : State) :
    (settle op b s).handlerQueue = s.handlerQueue := rfl
@[simp] theorem settle_turns (op : MicroOp) (b s : State) :
    (settle op b s).turns = s.turns := rfl
@[simp] theorem settle_statusOut (op : MicroOp) (b s : State) :
    (settle op b s).statusOut = s.statusOut := rfl
@[simp] theorem settle_wallMicros (op : MicroOp) (b s : State) :
    (settle op b s).wallMicros = b.wallMicros + microsOf op b.gmask b.draws := rfl
@[simp] theorem settle_draws (op : MicroOp) (b s : State) :
    (settle op b s).draws = b.draws + 1 := rfl

@[simp] theorem systemReset_carrier (s : State) :
    (systemReset s).carrier = State.reset.carrier := rfl
@[simp] theorem systemReset_pins (s : State) :
    (systemReset s).pins = State.reset.pins := rfl
@[simp] theorem systemReset_gmask (s : State) :
    (systemReset s).gmask = State.reset.gmask := rfl
@[simp] theorem systemReset_inSession (s : State) :
    (systemReset s).inSession = State.reset.inSession := rfl
@[simp] theorem systemReset_savedMask (s : State) :
    (systemReset s).savedMask = State.reset.savedMask := rfl
@[simp] theorem systemReset_pending (s : State) :
    (systemReset s).pending = State.reset.pending := rfl
@[simp] theorem systemReset_fault (s : State) :
    (systemReset s).fault = State.reset.fault := rfl
@[simp] theorem systemReset_phase (s : State) :
    (systemReset s).phase = State.reset.phase := rfl
@[simp] theorem systemReset_dblk (s : State) :
    (systemReset s).dblk = State.reset.dblk := rfl
@[simp] theorem systemReset_cmdLatch (s : State) :
    (systemReset s).cmdLatch = State.reset.cmdLatch := rfl
@[simp] theorem systemReset_payload (s : State) :
    (systemReset s).payload = State.reset.payload := rfl
@[simp] theorem systemReset_trace (s : State) :
    (systemReset s).trace = State.reset.trace := rfl
@[simp] theorem systemReset_issuer (s : State) :
    (systemReset s).issuer = State.reset.issuer := rfl
@[simp] theorem systemReset_hostQueue (s : State) :
    (systemReset s).hostQueue = s.hostQueue := rfl
@[simp] theorem systemReset_handlerQueue (s : State) :
    (systemReset s).handlerQueue = s.handlerQueue := rfl
@[simp] theorem systemReset_turns (s : State) :
    (systemReset s).turns = s.turns := rfl
@[simp] theorem systemReset_statusOut (s : State) :
    (systemReset s).statusOut = s.statusOut := rfl
@[simp] theorem systemReset_wallMicros (s : State) :
    (systemReset s).wallMicros = s.wallMicros := rfl
@[simp] theorem systemReset_draws (s : State) :
    (systemReset s).draws = s.draws := rfl

@[simp] theorem readStatus_carrier (s : State) :
    (readStatus s).carrier = s.carrier := rfl
@[simp] theorem readStatus_pins (s : State) :
    (readStatus s).pins = s.pins := rfl
@[simp] theorem readStatus_gmask (s : State) :
    (readStatus s).gmask = s.gmask := rfl
@[simp] theorem readStatus_inSession (s : State) :
    (readStatus s).inSession = s.inSession := rfl
@[simp] theorem readStatus_savedMask (s : State) :
    (readStatus s).savedMask = s.savedMask := rfl
@[simp] theorem readStatus_pending (s : State) :
    (readStatus s).pending = s.pending := rfl
@[simp] theorem readStatus_fault (s : State) :
    (readStatus s).fault = s.fault := rfl
@[simp] theorem readStatus_phase (s : State) :
    (readStatus s).phase = s.phase := rfl
@[simp] theorem readStatus_dblk (s : State) :
    (readStatus s).dblk = s.dblk := rfl
@[simp] theorem readStatus_cmdLatch (s : State) :
    (readStatus s).cmdLatch = s.cmdLatch := rfl
@[simp] theorem readStatus_payload (s : State) :
    (readStatus s).payload = s.payload := rfl
@[simp] theorem readStatus_trace (s : State) :
    (readStatus s).trace = s.trace := rfl
@[simp] theorem readStatus_issuer (s : State) :
    (readStatus s).issuer = s.issuer := rfl
@[simp] theorem readStatus_hostQueue (s : State) :
    (readStatus s).hostQueue = s.hostQueue := rfl
@[simp] theorem readStatus_handlerQueue (s : State) :
    (readStatus s).handlerQueue = s.handlerQueue := rfl
@[simp] theorem readStatus_turns (s : State) :
    (readStatus s).turns = s.turns := rfl
@[simp] theorem readStatus_statusOut (s : State) :
    (readStatus s).statusOut = some s.status := rfl
@[simp] theorem readStatus_wallMicros (s : State) :
    (readStatus s).wallMicros = s.wallMicros := rfl
@[simp] theorem readStatus_draws (s : State) :
    (readStatus s).draws = s.draws := rfl

@[simp] theorem placeWord_hostQueue (w : CommandWord) (s : State) :
    (placeWord w s).hostQueue = .issue w :: s.hostQueue := rfl
@[simp] theorem placeWord_turns (w : CommandWord) (s : State) :
    (placeWord w s).turns = .agent .host :: s.turns := rfl
@[simp] theorem placeWord_pending (w : CommandWord) (s : State) :
    (placeWord w s).pending = s.pending := rfl
@[simp] theorem placeWord_fault (w : CommandWord) (s : State) :
    (placeWord w s).fault = s.fault := rfl
@[simp] theorem placeWord_inSession (w : CommandWord) (s : State) :
    (placeWord w s).inSession = s.inSession := rfl
@[simp] theorem placeWord_issuer (w : CommandWord) (s : State) :
    (placeWord w s).issuer = s.issuer := rfl

end Sys2Proof.Machine
end

