-- ==== Sys2Proof/Laws/Ops.lean ====
section
/-! SUPPORT. What each shared operation can do, said once: the provers cite these instead of unfolding the
operation. -/

namespace Sys2Proof.Machine

/-! Flags. -/

theorem halted_eq_false_iff (s : State) : s.halted = false ↔ s.fault = .none := by
  simp [State.halted]

theorem halted_eq_true_iff (s : State) : s.halted = true ↔ s.fault ≠ .none := by
  simp [State.halted]

theorem busy_eq_false_iff (s : State) : s.busy = false ↔ s.pending = [] := by
  cases h : s.pending <;> simp [State.busy, h]

theorem busy_eq_true_iff (s : State) : s.busy = true ↔ s.pending ≠ [] := by
  cases h : s.pending <;> simp [State.busy, h]

/-! Taking a fault. -/

@[simp] theorem latchFault_none (c : FaultCode) : latchFault .none c = c := rfl

theorem latchFault_of_ne {old : FaultCode} (h : old ≠ .none) (c : FaultCode) : latchFault old c = old :=
  if_neg h

/-- The first fault's state (60 R232). -/
theorem raiseFault_of_none (c : FaultCode) {s : State} (h : s.fault = .none) :
    raiseFault c s = { s with fault := c, trace := s.trace ++ [.fault c], pending := teardown s } := by
  simp [raiseFault, h]

theorem teardown_ne_nil (s : State) : teardown s ≠ [] := by simp [teardown]

theorem teardown_length (s : State) : (teardown s).length ≤ 4 := by
  unfold teardown; split <;> split <;> simp

/-! Issuing a command. -/

theorem issue_of_halted (a : Acceptance) {s : State} (h : s.fault ≠ .none) : issue a s = s := by
  simp [issue, (halted_eq_true_iff s).2 h]

theorem issue_of_busy (a : Acceptance) {s : State} (h : s.fault = .none) (hb : s.pending ≠ []) :
    issue a s = raiseFault .concurrentCommand s := by
  simp [issue, (halted_eq_false_iff s).2 h, (busy_eq_true_iff s).2 hb]

theorem issue_fails (c : FaultCode) {s : State} (h : s.ready) : issue (.fails c) s = raiseFault c s := by
  simp [issue, (halted_eq_false_iff s).2 h.1, (busy_eq_false_iff s).2 h.2]

theorem issue_accepts (e : Expansion) {s : State} (h : s.ready) : issue (.accepts e) s = s.load e := by
  simp [issue, (halted_eq_false_iff s).2 h.1, (busy_eq_false_iff s).2 h.2]

/-- All that an issue can do (60 R236). -/
theorem issue_cases (a : Acceptance) (s : State) :
    (s.fault ≠ .none ∧ issue a s = s)
    ∨ (s.fault = .none ∧ s.pending ≠ [] ∧ issue a s = raiseFault .concurrentCommand s)
    ∨ (s.ready ∧ ∃ c, a = .fails c ∧ issue a s = raiseFault c s)
    ∨ (s.ready ∧ ∃ e, a = .accepts e ∧ issue a s = s.load e) := by
  by_cases hf : s.fault = .none
  · by_cases hp : s.pending = []
    · cases a with
      | fails c => exact .inr (.inr (.inl ⟨⟨hf, hp⟩, c, rfl, issue_fails c ⟨hf, hp⟩⟩))
      | accepts e => exact .inr (.inr (.inr ⟨⟨hf, hp⟩, e, rfl, issue_accepts e ⟨hf, hp⟩⟩))
    · exact .inr (.inl ⟨hf, hp, issue_of_busy a hf hp⟩)
  · exact .inl ⟨hf, issue_of_halted a hf⟩

theorem needCarrier_of_eq {c : Carrier} {s : State} (h : s.carrier = c) (e : Expansion) :
    needCarrier c e s = .accepts e := if_pos h

theorem needCarrier_of_ne {c : Carrier} {s : State} (h : s.carrier ≠ c) (e : Expansion) :
    needCarrier c e s = .fails .carrierState := if_neg h

/-- The acceptance of WRITE_FORMAT for a descriptor: the code of the first failing check, or every check
holds and the session is loaded (43 R192). -/
theorem descriptorAcceptance_cases (F : FormatDescriptor) (word : CommandWord) (idlen : BitVec 4)
    (id : BitVec 40) (s : State) :
    (∃ c, descriptorAcceptance F word idlen id s = .fails c ∧ c ≠ .none)
    ∨ (idlen.toNat = F.idBytes ∧ idTailZero idlen id = true ∧ s.carrier = .stopped
        ∧ (F.encode (idBytes idlen id)).length = F.nwords
        ∧ descriptorAcceptance F word idlen id s
          = .accepts ⟨fmtx Config.timing F (F.encode (idBytes idlen id)), word,
              some (F.encode (idBytes idlen id))⟩) := by
  unfold descriptorAcceptance
  split
  · exact .inl ⟨_, rfl, by decide⟩
  · split
    · exact .inl ⟨_, rfl, by decide⟩
    · split
      · exact .inl ⟨_, rfl, by decide⟩
      · split
        · exact .inl ⟨_, rfl, by decide⟩
        · refine .inr ⟨?_, ?_, ?_, ?_, rfl⟩ <;> simp_all

/-! Performing a micro-operation. -/

/-- What no micro-operation changes. -/
theorem perform_frame (op : MicroOp) (s : State) :
    (perform op s).cmdLatch = s.cmdLatch ∧ (perform op s).issuer = s.issuer
    ∧ (perform op s).hostQueue = s.hostQueue ∧ (perform op s).handlerQueue = s.handlerQueue
    ∧ (perform op s).turns = s.turns ∧ (perform op s).statusOut = s.statusOut
    ∧ (perform op s).payload = s.payload := by
  cases op <;> simp only [perform] <;> first | (split <;> simp) | simp

/-- A micro-operation either keeps the fault and what is pending, or raises a fault: a Pause or a Resume in
the wrong carrier state, or a page check. -/
theorem perform_pending (op : MicroOp) (s : State) :
    ((perform op s).fault = s.fault ∧ (perform op s).pending = s.pending)
    ∨ ∃ c, c ≠ .none ∧ perform op s = raiseFault c s := by
  cases op with
  | pause =>
    by_cases h : s.carrier = .running
    · exact .inl (by simp [perform, h])
    · exact .inr ⟨.carrierState, by decide, by simp [perform, h]⟩
  | resume =>
    by_cases h : s.carrier = .paused
    · exact .inl (by simp [perform, h])
    · exact .inr ⟨.carrierState, by decide, by simp [perform, h]⟩
  | checkPage p =>
    by_cases h : p = 0#8 ∨ p = 1#8
    · exact .inl (by simp [perform, h])
    · exact .inr ⟨.invalidPage, by decide, by simp [perform, h]⟩
  | start | stop | pinsReset | delay _ | maskEnter | maskExit | setPhase _ _ => exact .inl ⟨rfl, rfl⟩

/-- A micro-operation appends at most one event. -/
theorem perform_trace (op : MicroOp) (s : State) : ∃ evs, (perform op s).trace = s.trace ++ evs := by
  cases op <;> simp only [perform]
  · exact ⟨_, rfl⟩
  · exact ⟨_, rfl⟩
  · split <;> exact ⟨_, rfl⟩
  · split <;> exact ⟨_, rfl⟩
  · exact ⟨_, rfl⟩
  · exact ⟨_, rfl⟩
  · exact ⟨_, rfl⟩
  · exact ⟨_, rfl⟩
  · split
    · exact ⟨[], by simp⟩
    · exact ⟨_, rfl⟩
  · exact ⟨[], by simp⟩

/-! The steps of the agents. -/

theorem blockStep_cons {s : State} {op : MicroOp} {rest : List MicroOp} (h : s.pending = op :: rest) :
    blockStep s = settle op s (perform op { s with pending := rest }) := by
  simp [blockStep, h]

/-- A busy block whose turn it is, by default or asked for, performs its first micro-operation. -/
theorem step_blockMoves {s : State} {op : MicroOp} {rest : List MicroOp} {ts : List Turn}
    (h : s.blockMoves op rest ts) :
    step s = .next (settle op s (perform op { s with pending := rest, turns := ts })) := by
  obtain ⟨ht, hp⟩ := h
  have hb : s.busy = true := (busy_eq_true_iff s).2 (by simp [hp])
  rcases ht with ht | ⟨ht, rfl⟩
  · have he : agentEnabled .block { s with turns := ts } = true := hb
    simp only [step, machineStep, ht, agentStep, he, if_true]
    rw [blockStep_cons (s := { s with turns := ts }) hp]
    rfl
  · have he : agentEnabled .block s = true := hb
    simp only [step, machineStep, ht, defaultAgent, hb, agentStep, he, if_true]
    rw [blockStep_cons hp]
    obtain ⟨⟩ := s
    subst ht
    rfl

/-- With no turn asked for, a busy block moves. -/
theorem step_block {s : State} {op : MicroOp} {rest : List MicroOp} (ht : s.turns = [])
    (h : s.pending = op :: rest) :
    step s = .next (settle op s (perform op { s with pending := rest })) := by
  rw [step_blockMoves ⟨.inr ⟨ht, rfl⟩, h⟩]
  obtain ⟨⟩ := s
  subst ht
  rfl

/-- A command word decodes to an instruction just where `decodeCommand` gives it. -/
theorem decode_command_iff (w : CommandWord) (i : Instr) :
    decode (.command w) = .instr i ↔ decodeCommand w = .instr i := by
  simp only [decode]
  cases h : decodeCommand w <;> simp

theorem rejectCode_ne_none (r : CommandReject) : rejectCode r ≠ .none := by
  cases r <;> decide

/-- All that a word at the command port can do: the decoded instruction, or the fault of the check it fails. -/
theorem runWord_cases (w : CommandWord) (s : State) :
    (∃ i, decodeCommand w = .instr i ∧ runWord w s = exec i s)
    ∨ ∃ r, decodeCommand w = .rejected r ∧ runWord w s = .next (issue (.fails (rejectCode r)) s) := by
  unfold runWord
  split
  · exact .inl ⟨_, ‹_›, rfl⟩
  · exact .inr ⟨_, ‹_›, rfl⟩

/-- The acceptance an instruction is issued with in a state. -/
def acceptanceOf (i : Instr) (s : State) : Acceptance :=
  match i with
  | .carrierStart => needCarrier .stopped ⟨[.start], wordCarrierStart, none⟩ s
  | .carrierStop => .accepts ⟨[.stop, .pinsReset], wordCarrierStop, none⟩
  | .writeBit v => needCarrier .running ⟨bitx Config.timing v, wordWriteBit v, none⟩ s
  | .writeByte b => needCarrier .running ⟨bytex Config.timing b, wordWriteByte b, none⟩ s
  | .writeGap d => needCarrier .running ⟨gapx d.toNat, wordWriteGap d, none⟩ s
  | .writeReset => needCarrier .running ⟨rstx Config.timing, wordWriteReset, none⟩ s
  | .writeBlock page lock addr data =>
    needCarrier .running ⟨blkx Config.timing page addr lock data, wordWriteBlock page lock addr data, none⟩ s
  | .writeFormat fmt idlen id => formatAcceptance fmt idlen id s
  | .writeEm id => formatAcceptance 0#8 5#4 id s
  | .writeHid id => formatAcceptance 1#8 3#4 (0#16 ++ id) s
  | .airWritePage0 lock data addr =>
    needCarrier .running ⟨blkx Config.timing 0#8 addr lock data, wordWriteBlock 0#8 lock addr data, none⟩ s
  | .airWritePage1 lock data addr =>
    needCarrier .running ⟨blkx Config.timing 1#8 addr lock data, wordWriteBlock 1#8 lock addr data, none⟩ s
  | .airReset => needCarrier .running ⟨rstx Config.timing, wordWriteReset, none⟩ s

/-- Every instruction is issued: it always answers a next state, the one `issue` gives. -/
theorem exec_eq_issue (i : Instr) (s : State) : exec i s = .next (issue (acceptanceOf i s) s) := by
  cases i <;> rfl

theorem needCarrier_fails {c : Carrier} {e : Expansion} {s : State} {f : FaultCode}
    (h : needCarrier c e s = .fails f) : f ≠ .none := by
  unfold needCarrier at h
  split at h
  · cases h
  · cases h
    decide

theorem formatAcceptance_fails {fmt : BitVec 8} {idlen : BitVec 4} {id : BitVec 40} {s : State} {f : FaultCode}
    (h : formatAcceptance fmt idlen id s = .fails f) : f ≠ .none := by
  unfold formatAcceptance at h
  split at h
  · cases h
    decide
  · rename_i F _
    rcases descriptorAcceptance_cases F (wordWriteFormat fmt idlen id) idlen id s with ⟨c, hc, hne⟩ | ⟨_, _, _, _, hk⟩
    · rw [hc] at h
      cases h
      exact hne
    · rw [hk] at h
      cases h

/-- The fault an instruction's acceptance answers is a fault. -/
theorem acceptanceOf_fails {i : Instr} {s : State} {f : FaultCode} (h : acceptanceOf i s = .fails f) :
    f ≠ .none := by
  cases i with
  | carrierStop => cases h
  | writeFormat fmt idlen id => exact formatAcceptance_fails (fmt := fmt) (idlen := idlen) (id := id) h
  | writeEm id => exact formatAcceptance_fails (fmt := 0#8) (idlen := 5#4) (id := id) h
  | writeHid id => exact formatAcceptance_fails (fmt := 1#8) (idlen := 3#4) (id := 0#16 ++ id) h
  | carrierStart | writeBit _ | writeByte _ | writeGap _ | writeReset | writeBlock _ _ _ _
  | airWritePage0 _ _ _ | airWritePage1 _ _ _ | airReset => exact needCarrier_fails h

end Sys2Proof.Machine
end

