-- ==== Sys2Proof/Laws/Expansions.lean ====
section
/-! SUPPORT. What the expansions do when the block performs them: one lemma for each micro-operation and for
each expansion function, and how such runs compose. -/

namespace Sys2Proof.Machine

/-! States that agree but for the clock, the draws and the payload. -/

theorem agrees_refl (s : State) : s.agrees s := ⟨s.wallMicros, s.draws, s.payload, rfl⟩

theorem agrees_trans {s t u : State} (h : s.agrees t) (k : t.agrees u) : s.agrees u := by
  obtain ⟨w, d, p, rfl⟩ := h
  obtain ⟨w', d', p', rfl⟩ := k
  exact ⟨w', d', p', rfl⟩

theorem agrees_settle (op : MicroOp) (s t : State) : t.agrees (settle op s t) := ⟨_, _, _, rfl⟩

/-- A micro-operation's effect does not depend on the clock, the draws and the payload. -/
theorem perform_agrees (op : MicroOp) {s t : State} (h : s.agrees t) : (perform op s).agrees (perform op t) := by
  obtain ⟨w, d, p, rfl⟩ := h
  cases op with
  | pause =>
    by_cases hc : s.carrier = .running
    · simp only [perform, hc, if_true]; exact ⟨w, d, p, rfl⟩
    · simp only [perform, hc, if_false]; exact ⟨w, d, p, rfl⟩
  | resume =>
    by_cases hc : s.carrier = .paused
    · simp only [perform, hc, if_true]; exact ⟨w, d, p, rfl⟩
    · simp only [perform, hc, if_false]; exact ⟨w, d, p, rfl⟩
  | checkPage q =>
    by_cases hq : q = 0#8 ∨ q = 1#8
    · simp only [perform, hq, if_true]; exact ⟨w, d, p, rfl⟩
    · simp only [perform, hq, if_false]; exact ⟨w, d, p, rfl⟩
  | start | stop | pinsReset | delay _ | maskEnter | maskExit | setPhase _ _ => exact ⟨w, d, p, rfl⟩

/-! Runs. -/

theorem steps_add (m n : Nat) (s : State) :
    steps (m + n) s = match steps m s with
      | .next t => steps n t
      | .fault r => .fault r
      | .refused r => .refused r := by
  induction m generalizing s with
  | zero => simp [steps]
  | succ m ih =>
    rw [Nat.succ_add]
    simp only [steps]
    split
    · exact ih _
    · rfl
    · rfl

theorem steps_add_of_next {m n : Nat} {s t : State} (h : steps m s = .next t) : steps (m + n) s = steps n t := by
  rw [steps_add, h]

theorem steps_block {n : Nat} {s : State} {op : MicroOp} {rest : List MicroOp} (ht : s.turns = [])
    (h : s.pending = op :: rest) :
    steps (n + 1) s = steps n (settle op s (perform op { s with pending := rest })) := by
  simp [steps, step_block ht h]

/-- Performing `ops`, whatever is pending after them, leads from `s` to `t`, up to clock, draws and
payload. -/
def carries (ops : List MicroOp) (s t : State) : Prop :=
  ∀ (rest : List MicroOp) (u : State), { s with pending := ops ++ rest }.agrees u →
    ∃ v, steps ops.length u = .next v ∧ { t with pending := rest }.agrees v

theorem carries_nil (s : State) : carries [] s s := fun _ u h => ⟨u, rfl, h⟩

theorem carries_append {xs ys : List MicroOp} {s t u : State} (h : carries xs s t) (k : carries ys t u) :
    carries (xs ++ ys) s u := by
  intro rest a ha
  rw [List.append_assoc] at ha
  obtain ⟨v, hv, hav⟩ := h (ys ++ rest) a ha
  obtain ⟨w, hw, haw⟩ := k rest v hav
  exact ⟨w, by rw [List.length_append, steps_add_of_next hv, hw], haw⟩

/-- A micro-operation that raises no fault. -/
theorem carries_one (op : MicroOp) (s t : State) (ht : s.turns = [])
    (h : ∀ rest, perform op { s with pending := rest } = { t with pending := rest }) : carries [op] s t := by
  intro rest u hu
  have hu' := hu
  obtain ⟨w, d, p, rfl⟩ := hu
  refine ⟨_, steps_block (n := 0) ht rfl, ?_⟩
  refine agrees_trans ?_ (agrees_settle _ _ _)
  rw [← h rest]
  exact perform_agrees op ⟨w, d, p, rfl⟩

theorem carries_cons {op : MicroOp} {ops : List MicroOp} {s t u : State} (h : carries [op] s t)
    (k : carries ops t u) : carries (op :: ops) s u := carries_append h k

/-- A run of a whole pending list ends in the state it leads to. -/
theorem runsTo_of_carries {ops : List MicroOp} {s t : State} (h : carries ops s t) (hp : s.pending = ops) :
    runsTo ops.length s { t with pending := [] } := by
  refine h [] s ?_
  rw [List.append_nil, ← hp]
  exact agrees_refl s

/-! The micro-operations. -/

theorem carries_start (s : State) (ht : s.turns = []) :
    carries [.start] s { s with
      carrier := .running, pins := .configured,
      trace := s.trace ++ [.start Config.carrierHz Config.carrierDuty] } :=
  carries_one _ _ _ ht fun _ => rfl

theorem carries_stop (s : State) (ht : s.turns = []) :
    carries [.stop] s { s with carrier := .stopped, trace := s.trace ++ [.stop] } :=
  carries_one _ _ _ ht fun _ => rfl

theorem carries_pinsReset (s : State) (ht : s.turns = []) :
    carries [.pinsReset] s { s with pins := .reset, trace := s.trace ++ [.pinsReset] } :=
  carries_one _ _ _ ht fun _ => rfl

theorem carries_pause (s : State) (ht : s.turns = []) (hc : s.carrier = .running) :
    carries [.pause] s { s with carrier := .paused, trace := s.trace ++ [.pause] } :=
  carries_one _ _ _ ht fun _ => by simp [perform, hc, State.emit]

theorem carries_resume (s : State) (ht : s.turns = []) (hc : s.carrier = .paused) :
    carries [.resume] s { s with carrier := .running, trace := s.trace ++ [.resume] } :=
  carries_one _ _ _ ht fun _ => by simp [perform, hc, State.emit]

theorem carries_delay (s : State) (ht : s.turns = []) (n : Nat) :
    carries [.delay n] s { s with trace := s.trace ++ [.delay n s.level] } :=
  carries_one _ _ _ ht fun _ => rfl

theorem carries_maskEnter (s : State) (ht : s.turns = []) :
    carries [.maskEnter] s { s with
      savedMask := s.gmask, gmask := true, inSession := true, trace := s.trace ++ [.mask s.gmask] } :=
  carries_one _ _ _ ht fun _ => rfl

theorem carries_maskExit (s : State) (ht : s.turns = []) :
    carries [.maskExit] s { s with
      gmask := s.savedMask, inSession := false, trace := s.trace ++ [.unmask s.savedMask] } :=
  carries_one _ _ _ ht fun _ => rfl

theorem carries_checkPage (s : State) (ht : s.turns = []) {p : BitVec 8} (hp : p = 0#8 ∨ p = 1#8) :
    carries [.checkPage p] s s :=
  carries_one _ _ _ ht fun _ => if_pos hp

theorem carries_setPhase (s : State) (ht : s.turns = []) (ph : Phase) (i : BitVec 3) :
    carries [.setPhase ph i] s { s with phase := ph, dblk := i } :=
  carries_one _ _ _ ht fun _ => rfl

/-! The expansions: with the carrier running they append their events and leave the rest as it is. -/

/-- With the carrier running, `ops` appends exactly `evs` to the trace and changes nothing else. -/
def plays (ops : List MicroOp) (evs : List Event) : Prop :=
  ∀ s : State, s.turns = [] → s.carrier = .running → carries ops s { s with trace := s.trace ++ evs }

theorem plays_nil : plays [] [] := fun s _ _ => by simpa using carries_nil s

theorem plays_append {xs ys : List MicroOp} {es fs : List Event} (h : plays xs es) (k : plays ys fs) :
    plays (xs ++ ys) (es ++ fs) := by
  intro s ht hc
  have := carries_append (h s ht hc) (k { s with trace := s.trace ++ es } ht hc)
  simpa [List.append_assoc] using this

theorem plays_delay (n : Nat) : plays [.delay n] [.delay n .on] := by
  intro s ht hc
  simpa [State.level, hc] using carries_delay s ht n

theorem plays_checkPage {p : BitVec 8} (hp : p = 0#8 ∨ p = 1#8) : plays [.checkPage p] [] := by
  intro s ht _
  simpa using carries_checkPage s ht hp

theorem plays_gapx (d : Nat) : plays (gapx d) (gapEvents d) := by
  intro s ht hc
  have h1 := carries_pause s ht hc
  have h2 := carries_delay { s with carrier := .paused, trace := s.trace ++ [.pause] } ht d
  have h3 := carries_resume { s with
    carrier := .paused, trace := s.trace ++ [.pause] ++ [.delay d .off] } ht rfl
  have := carries_cons h1 (carries_cons (by simpa [State.level] using h2) h3)
  obtain ⟨⟩ := s
  subst hc
  simpa [gapx, gapEvents, List.append_assoc] using this

theorem plays_bitx (t : TimingProfile) (v : Bool) : plays (bitx t v) (cellEvents t v) :=
  plays_append (plays_delay _) (plays_gapx _)

theorem plays_cellsx (t : TimingProfile) (bits : List Bool) : plays (cellsx t bits) (cellsEvents t bits) := by
  induction bits with
  | nil => exact plays_nil
  | cons b bs ih => exact plays_append (plays_bitx t b) ih

theorem plays_rstx (t : TimingProfile) : plays (rstx t) (frameEvents t [true, false]) := by
  have := plays_append (plays_append (plays_gapx t.startGap) (plays_bitx t true)) (plays_bitx t false)
  simpa [rstx, frameEvents, cellsEvents, List.append_assoc] using this

/-- A block write on a valid page (42 R163). -/
theorem plays_blkx (t : TimingProfile) {p : BitVec 8} (a : BitVec 3) (l : Bool) (d : DataWord)
    (hp : p = 0#8 ∨ p = 1#8) : plays (blkx t p a l d) (blockEvents t (decide (p = 1#8)) l d a) := by
  have opening := plays_append (plays_append (plays_checkPage hp) (plays_delay t.waitTime)) (plays_gapx t.startGap)
  have opcode := plays_append (plays_bitx t true) (plays_bitx t (decide (p = 1#8)))
  have fields := plays_append (plays_append (plays_bitx t l) (plays_cellsx t (msbFirst d)))
    (plays_cellsx t (msbFirst a))
  have closing := plays_append (plays_append (plays_delay t.program) (plays_delay t.waitTime)) (plays_rstx t)
  have whole := plays_append (plays_append (plays_append opening opcode) fields) closing
  simpa [blkx, blockEvents, frameEvents, writeFrameBits, cellsEvents, List.append_assoc] using whole

theorem plays_framex {n : Nat} (t : TimingProfile) (f : BitVec n) :
    plays (framex t f) (frameEvents t (msbFirst f)) :=
  plays_append (plays_gapx _) (plays_cellsx _ _)

/-- The data blocks of a session on a valid page, from address `i` on: their events in ascending order; only the
phase and the block number change beside the trace (43 R193). -/
theorem carries_dataBlocksx (t : TimingProfile) {p : BitVec 8} (hp : p = 0#8 ∨ p = 1#8) (w : List DataWord) :
    ∀ (i : Nat) (s : State), s.turns = [] → s.carrier = .running →
      ∃ ph db, carries (dataBlocksx t p i w) s { s with
        phase := ph, dblk := db,
        trace := s.trace ++ (List.range w.length).flatMap fun k =>
          blockEvents t (decide (p = 1#8)) false (w.getD k 0) (BitVec.ofNat 3 (k + i)) } := by
  induction w with
  | nil =>
    intro i s _ _
    exact ⟨s.phase, s.dblk, by simpa [dataBlocksx] using carries_nil s⟩
  | cons x xs ih =>
    intro i s ht hc
    have block := plays_blkx t (BitVec.ofNat 3 i) false x hp s ht hc
    have phase := carries_setPhase
      { s with trace := s.trace ++ blockEvents t (decide (p = 1#8)) false x (BitVec.ofNat 3 i) } ht
      .dataBlockSent (BitVec.ofNat 3 i)
    obtain ⟨ph, db, others⟩ := ih (i + 1)
      { s with
        phase := .dataBlockSent, dblk := BitVec.ofNat 3 i,
        trace := s.trace ++ blockEvents t (decide (p = 1#8)) false x (BitVec.ofNat 3 i) } ht hc
    refine ⟨ph, db, ?_⟩
    have whole := carries_append (carries_append block phase) others
    simp only [dataBlocksx, List.append_assoc] at whole ⊢
    simpa [List.range_succ_eq_map, List.flatMap_map, Nat.add_assoc, Nat.add_comm 1] using whole

/-- An accepted expansion that plays its events runs to its end: the word is latched, the events are appended and
the rest is as before. -/
theorem runsTo_load_of_plays {s : State} {e : Expansion} {evs : List Event} (h : plays e.ops evs)
    (hr : s.ready) (ht : s.turns = []) (hc : s.carrier = .running) (hp : e.payload = none) :
    runsTo e.ops.length (s.load e) { s with
      cmdLatch := e.latch, trace := s.trace ++ evs } := by
  obtain ⟨ops, l, p⟩ := e
  subst hp
  have run := runsTo_of_carries (h (s.load ⟨ops, l, none⟩) ht hc) rfl
  obtain ⟨⟩ := s
  obtain ⟨hf, hpend⟩ := hr
  simp only at hf hpend
  subst hf hpend
  exact run

/-! Lengths. -/

@[simp] theorem gapx_length (d : Nat) : (gapx d).length = 3 := rfl

@[simp] theorem bitx_length (t : TimingProfile) (v : Bool) : (bitx t v).length = 4 := rfl

@[simp] theorem cellsx_length (t : TimingProfile) (bits : List Bool) : (cellsx t bits).length = 4 * bits.length := by
  induction bits with
  | nil => rfl
  | cons b bs ih =>
    have : cellsx t (b :: bs) = bitx t b ++ cellsx t bs := rfl
    rw [this, List.length_append, ih, bitx_length, List.length_cons]
    omega

@[simp] theorem lsbFirst_length {n : Nat} (v : BitVec n) : (lsbFirst v).length = n := by simp [lsbFirst]

@[simp] theorem msbFirst_length {n : Nat} (v : BitVec n) : (msbFirst v).length = n := by simp [msbFirst]

@[simp] theorem rstx_length (t : TimingProfile) : (rstx t).length = 11 := rfl

@[simp] theorem blkx_length (t : TimingProfile) (p : BitVec 8) (a : BitVec 3) (l : Bool) (d : DataWord) :
    (blkx t p a l d).length = 170 := by simp [blkx]

@[simp] theorem framex_length {n : Nat} (t : TimingProfile) (f : BitVec n) : (framex t f).length = 3 + 4 * n := by
  simp [framex]

@[simp] theorem dataBlocksx_length (t : TimingProfile) (p : BitVec 8) (w : List DataWord) :
    ∀ i, (dataBlocksx t p i w).length = 171 * w.length := by
  induction w with
  | nil => intro i; rfl
  | cons x xs ih =>
    intro i
    simp only [dataBlocksx, List.length_append, blkx_length, ih, List.length_cons, List.length_nil]
    omega

@[simp] theorem fmtx_length (t : TimingProfile) (F : FormatDescriptor) (w : List DataWord) :
    (fmtx t F w).length = 191 + 171 * w.length := by
  simp only [fmtx, List.length_append, blkx_length, dataBlocksx_length, rstx_length, List.length_cons, List.length_nil]
  omega

end Sys2Proof.Machine
end

