-- ==== Sys2Proof/Laws/Durations.lean ====
section
/-! SUPPORT. Bit sequences of concatenated values, and the nominal duration of each expansion function. -/

namespace Sys2Proof.Machine

/-- A concatenation is emitted upper part first. -/
theorem msbFirst_append {a b : Nat} (x : BitVec a) (y : BitVec b) :
    msbFirst (x ++ y) = msbFirst x ++ msbFirst y := by
  unfold msbFirst
  apply List.ext_getElem
  · simp
  · intro i h _
    simp only [List.length_map, List.length_range] at h
    simp only [List.getElem_map, List.getElem_range, List.getElem_append, List.length_map, List.length_range,
      BitVec.getLsbD_append]
    by_cases hi : i < a
    · rw [dif_pos hi, if_neg (by omega)]
      congr 1
      omega
    · rw [dif_neg hi, if_pos (by omega)]
      congr 1
      omega

theorem msbFirst_eq_reverse {n : Nat} (v : BitVec n) : msbFirst v = (lsbFirst v).reverse := by
  unfold msbFirst lsbFirst
  apply List.ext_getElem
  · simp
  · intro i _ _
    simp

theorem msbFirst_count_true {n : Nat} (v : BitVec n) : (msbFirst v).count true = popcount v := by
  rw [msbFirst_eq_reverse, List.count_reverse, popcount]

theorem lsbFirst_count_true {n : Nat} (v : BitVec n) : (lsbFirst v).count true = popcount v := rfl

theorem count_true_add_count_false (l : List Bool) : l.count true + l.count false = l.length := by
  induction l with
  | nil => rfl
  | cons b bs ih => cases b <;> simp <;> omega

theorem popcount_le {n : Nat} (v : BitVec n) : popcount v ≤ n := by
  have := count_true_add_count_false (lsbFirst v)
  rw [lsbFirst_count_true, lsbFirst_length] at this
  omega

theorem msbFirst_count_false {n : Nat} (v : BitVec n) : (msbFirst v).count false = n - popcount v := by
  have := count_true_add_count_false (msbFirst v)
  rw [msbFirst_count_true, msbFirst_length] at this
  omega

/-! Durations. -/

theorem clocks_nil : clocks [] = 0 := rfl

theorem clocks_cons (op : MicroOp) (ops : List MicroOp) : clocks (op :: ops) = clocksOf op + clocks ops := by
  simp [clocks]

theorem clocks_append (xs ys : List MicroOp) : clocks (xs ++ ys) = clocks xs + clocks ys := by
  simp [clocks]

theorem clocks_gapx (d : Nat) : clocks (gapx d) = d := by
  simp [gapx, clocks, clocksOf]

theorem clocks_bitx (t : TimingProfile) (v : Bool) :
    clocks (bitx t v) = (if v then t.data1 else t.data0) + t.writeGap := by
  rw [bitx, clocks_append, clocks_gapx, clocks_cons, clocks_nil]
  rfl

theorem clocks_cellsx (t : TimingProfile) (bits : List Bool) :
    clocks (cellsx t bits)
      = bits.count true * t.data1 + bits.count false * t.data0 + bits.length * t.writeGap := by
  induction bits with
  | nil => simp [cellsx, clocks_nil]
  | cons b bs ih =>
    rw [show cellsx t (b :: bs) = bitx t b ++ cellsx t bs from rfl, clocks_append, ih, clocks_bitx]
    cases b
    · simp only [Bool.false_eq_true, if_false, List.count_cons_self, List.count_cons, List.length_cons, Nat.add_mul]
      simp
      omega
    · simp only [if_true, List.count_cons_self, List.count_cons, List.length_cons, Nat.add_mul]
      simp
      omega

theorem clocks_rstx (t : TimingProfile) : clocks (rstx t) = resetClocks t := by
  simp only [rstx, clocks_append, clocks_gapx, clocks_bitx, resetClocks]
  simp
  omega

end Sys2Proof.Machine
end

