-- ==== Sys2Proof/Laws/Faults.lean ====
section
/-! SUPPORT. What the teardown after a fault does when the block performs it (60 R233), and a run that ends in
a fault of one of its micro-operations. -/

namespace Sys2Proof.Machine

/-- The state a fault leaves when its teardown is done. -/
def tornDown (c : FaultCode) (s : State) : State :=
  { s with
    fault := c, pending := [], carrier := .stopped, inSession := false, phase := .idle, dblk := 0#3
    pins := if s.carrier = .stopped then s.pins else .reset
    gmask := if s.inSession then s.savedMask else s.gmask
    trace := s.trace ++ [.fault c] ++ (if s.inSession then [.unmask s.savedMask] else [])
      ++ (if s.carrier = .stopped then [] else [.stop, .pinsReset]) }

/-- The carrier's part of a teardown. -/
theorem carries_carrierOff (s : State) (ht : s.turns = []) :
    carries (if s.carrier = .stopped then [] else [.stop, .pinsReset]) s { s with
      carrier := .stopped, pins := if s.carrier = .stopped then s.pins else .reset,
      trace := s.trace ++ (if s.carrier = .stopped then [] else [.stop, .pinsReset]) } := by
  by_cases hc : s.carrier = .stopped
  · obtain ⟨⟩ := s
    subst hc
    simpa using carries_nil _
  · have := carries_cons (carries_stop s ht)
      (carries_pinsReset { s with carrier := .stopped, trace := s.trace ++ [.stop] } ht)
    simpa [hc, List.append_assoc] using this

/-- The critical section's part of a teardown. -/
theorem carries_sectionEnd (s : State) (ht : s.turns = []) :
    carries (if s.inSession then [.maskExit] else []) s { s with
      inSession := false, gmask := if s.inSession then s.savedMask else s.gmask,
      trace := s.trace ++ (if s.inSession then [.unmask s.savedMask] else []) } := by
  by_cases hs : s.inSession = true
  · simpa [hs] using carries_maskExit s ht
  · obtain ⟨⟩ := s
    simp only [Bool.not_eq_true] at hs
    subst hs
    simpa using carries_nil _

/-- The teardown of a fault that was raised in `s` runs to its end. -/
theorem carries_teardown (c : FaultCode) (s : State) (ht : s.turns = []) :
    carries (teardown s) { s with fault := c, trace := s.trace ++ [.fault c] } { tornDown c s with pending := s.pending } := by
  have one := carries_sectionEnd { s with fault := c, trace := s.trace ++ [.fault c] } ht
  have two := carries_carrierOff { s with
    fault := c, inSession := false, gmask := if s.inSession then s.savedMask else s.gmask,
    trace := s.trace ++ [.fault c] ++ (if s.inSession then [.unmask s.savedMask] else []) } ht
  have three := carries_setPhase { s with
    fault := c, carrier := .stopped, inSession := false, gmask := if s.inSession then s.savedMask else s.gmask,
    pins := if s.carrier = .stopped then s.pins else .reset,
    trace := s.trace ++ [.fault c] ++ (if s.inSession then [.unmask s.savedMask] else [])
      ++ (if s.carrier = .stopped then [] else [.stop, .pinsReset]) } ht .idle 0#3
  exact carries_append (carries_append one two) three

theorem steps_agrees_pending {s t : State} (h : s.agrees t) : t.pending = s.pending ∧ t.turns = s.turns := by
  obtain ⟨_, _, _, rfl⟩ := h
  exact ⟨rfl, rfl⟩

/-- A run whose next micro-operation faults: what was performed, the fault, the teardown. -/
theorem runsTo_of_fault {xs rest : List MicroOp} {op : MicroOp} {c : FaultCode} {s t : State}
    (h : carries xs s t) (hp : s.pending = xs ++ op :: rest) (ht : t.turns = []) (hf : t.fault = .none)
    (hop : perform op { t with pending := rest } = raiseFault c { t with pending := rest }) :
    runsTo (xs.length + (1 + (teardown t).length)) s (tornDown c t) := by
  obtain ⟨u, hu, hau⟩ := h (op :: rest) s (by rw [← hp]; exact agrees_refl s)
  obtain ⟨hup, hut⟩ := steps_agrees_pending hau
  have first : ∃ v, steps 1 u = .next v
      ∧ State.agrees { t with fault := c, trace := t.trace ++ [.fault c], pending := teardown t } v := by
    refine ⟨_, steps_block (n := 0) (by rw [hut]; exact ht) hup, ?_⟩
    refine agrees_trans ?_ (agrees_settle _ _ _)
    have := perform_agrees op (s := { t with pending := rest }) (t := { u with pending := rest })
      (by obtain ⟨_, _, _, rfl⟩ := hau; exact ⟨_, _, _, rfl⟩)
    rw [hop, raiseFault_of_none c (by exact hf)] at this
    exact this
  obtain ⟨v, hv, hav⟩ := first
  obtain ⟨w, hw, haw⟩ := carries_teardown c t ht [] v (by rw [List.append_nil]; exact hav)
  exact ⟨w, by rw [steps_add_of_next hu, steps_add_of_next hv, hw], haw⟩

end Sys2Proof.Machine
end

