-- ==== Sys2Proof/Laws/Fit.lean ====
section
/-! SUPPORT. Which pending lists fit (10 R41): the expansions and the teardown, piece by piece. -/

namespace Sys2Proof.Machine

theorem opsFit_idle (halted : Bool) (c : Carrier) (session : Bool) :
    opsFit halted c session [] = (!session && (if halted then c == .stopped else c != .paused)) := rfl

/-- A gap is entered and left with the carrier running. -/
theorem opsFit_gapx (session : Bool) (d : Nat) (rest : List MicroOp) :
    opsFit false .running session (gapx d ++ rest) = opsFit false .running session rest := by
  simp [gapx, opsFit]

theorem opsFit_delay (session : Bool) (n : Nat) (rest : List MicroOp) :
    opsFit false .running session (.delay n :: rest) = opsFit false .running session rest := by
  simp [opsFit]

theorem opsFit_checkPage (session : Bool) (p : BitVec 8) (rest : List MicroOp) :
    opsFit false .running session (.checkPage p :: rest) = opsFit false .running session rest := by
  simp [opsFit]

theorem opsFit_setPhase (session : Bool) (ph : Phase) (i : BitVec 3) (rest : List MicroOp) :
    opsFit false .running session (.setPhase ph i :: rest) = opsFit false .running session rest := by
  simp [opsFit]

theorem opsFit_bitx (session : Bool) (t : TimingProfile) (v : Bool) (rest : List MicroOp) :
    opsFit false .running session (bitx t v ++ rest) = opsFit false .running session rest := by
  rw [bitx, List.append_assoc, List.singleton_append, opsFit_delay, opsFit_gapx]

theorem opsFit_cellsx (session : Bool) (t : TimingProfile) (bits : List Bool) (rest : List MicroOp) :
    opsFit false .running session (cellsx t bits ++ rest) = opsFit false .running session rest := by
  induction bits with
  | nil => rfl
  | cons b bs ih =>
    rw [show cellsx t (b :: bs) = bitx t b ++ cellsx t bs from rfl, List.append_assoc, opsFit_bitx, ih]

theorem opsFit_rstx (session : Bool) (t : TimingProfile) (rest : List MicroOp) :
    opsFit false .running session (rstx t ++ rest) = opsFit false .running session rest := by
  simp only [rstx, List.append_assoc, opsFit_gapx, opsFit_bitx]

theorem opsFit_framex {n : Nat} (session : Bool) (t : TimingProfile) (f : BitVec n) (rest : List MicroOp) :
    opsFit false .running session (framex t f ++ rest) = opsFit false .running session rest := by
  simp only [framex, List.append_assoc, opsFit_gapx, opsFit_cellsx]

theorem opsFit_blkx (session : Bool) (t : TimingProfile) (p : BitVec 8) (a : BitVec 3) (l : Bool) (d : DataWord)
    (rest : List MicroOp) :
    opsFit false .running session (blkx t p a l d ++ rest) = opsFit false .running session rest := by
  simp only [blkx, List.append_assoc, List.cons_append, List.nil_append, opsFit_checkPage, opsFit_delay,
    opsFit_gapx, opsFit_bitx, opsFit_cellsx, opsFit_rstx]

theorem opsFit_dataBlocksx (session : Bool) (t : TimingProfile) (p : BitVec 8) (w : List DataWord)
    (rest : List MicroOp) :
    ∀ i, opsFit false .running session (dataBlocksx t p i w ++ rest) = opsFit false .running session rest := by
  induction w with
  | nil => intro i; rfl
  | cons x xs ih =>
    intro i
    simp only [dataBlocksx, List.append_assoc, List.cons_append, List.nil_append, opsFit_blkx, opsFit_setPhase, ih]

/-- A session's expansion fits a stopped carrier outside a session. -/
theorem opsFit_fmtx (t : TimingProfile) (F : FormatDescriptor) (w : List DataWord) :
    opsFit false .stopped false (fmtx t F w) = true := by
  have inner : opsFit false .running true
      (blkx t 0#8 0#3 false F.config ++ (.setPhase .configBlockSent 0#3 ::
        (dataBlocksx t F.dataPage 1 w ++ (rstx t ++ (.setPhase .resetSent 0#3 ::
          [.maskExit, .stop, .pinsReset, .setPhase .carrierStopped 0#3, .setPhase .idle 0#3]))))) = true := by
    rw [opsFit_blkx, opsFit_setPhase, opsFit_dataBlocksx, opsFit_rstx, opsFit_setPhase]
    decide
  simpa [fmtx, opsFit] using inner

/-- A teardown fits every state it is taken in. -/
theorem opsFit_teardown (s : State) : opsFit true s.carrier s.inSession (teardown s) = true := by
  unfold teardown
  cases s.inSession <;> cases s.carrier <;> decide

end Sys2Proof.Machine
end

