-- ==== Sys2Proof/Laws/PerInstr.lean ====
section
/-! SUPPORT. A family of laws, one per instruction: its encoding has the match of its opcode-table row under the
row's mask. -/

namespace Sys2Proof.Laws.EncodingMatchesRow

/-- A port word as the number the opcode table numbers it. -/
def wordNat : PortWord → Nat
  | .command w => w.toNat
  | .frame (.write f) => f.toNat
  | .frame (.reset f) => f.toNat

/-- The mask and the match of an instruction's row in spec/opcode_table.json. -/
def row : Instr → Nat × Nat
  | .carrierStart => (0xFFFFFFFFFFFFFFFF, 0x0100000000000000)
  | .carrierStop => (0xFFFFFFFFFFFFFFFF, 0x0200000000000000)
  | .writeBit _ => (0xFFFFFFFFFFFFFFFE, 0x1000000000000000)
  | .writeByte _ => (0xFFFFFFFFFFFFFF00, 0x1100000000000000)
  | .writeGap _ => (0xFFFFFFFF00000000, 0x1200000000000000)
  | .writeReset => (0xFFFFFFFFFFFFFFFF, 0x1300000000000000)
  | .writeBlock _ _ _ _ => (0xFF00F0FF00000000, 0x2000000000000000)
  | .writeFormat _ _ _ => (0xFF000F0000000000, 0x3000000000000000)
  | .writeEm _ => (0xFFFFFF0000000000, 0x3000500000000000)
  | .writeHid _ => (0xFFFFFFFFFF000000, 0x3001300000000000)
  | .airWritePage0 _ _ _ => (0x3000000000, 0x2000000000)
  | .airWritePage1 _ _ _ => (0x3000000000, 0x3000000000)
  | .airReset => (0x3, 0x2)

/-- The encoding is a word of the instruction's row. -/
def Statement (i : Instr) : Prop := wordNat (encode i) &&& (row i).1 = (row i).2

/-- A masked bit vector as a number. -/
theorem masked {n : Nat} {w : BitVec n} (mask bits : BitVec n) (h : w &&& mask = bits) :
    w.toNat &&& mask.toNat = bits.toNat := by
  rw [← BitVec.toNat_and, h]

/-- The mask is taken field by field. -/
theorem and_fields {a b : Nat} (x m : BitVec a) (y n : BitVec b) : (x ++ y) &&& (m ++ n) = (x &&& m) ++ (y &&& n) := by
  apply BitVec.eq_of_getLsbD_eq
  intro i _
  simp only [BitVec.getLsbD_and, BitVec.getLsbD_append]
  split <;> rfl

/-- A field under a mask of zeros. -/
theorem and_none {a : Nat} (x : BitVec a) : x &&& 0#a = 0#a := by simp

theorem carrierStart : Statement .carrierStart := by
  show _ = _
  decide

theorem carrierStop : Statement .carrierStop := by
  show _ = _
  decide

theorem writeBit (v : Bool) : Statement (.writeBit v) :=
  masked 0xFFFFFFFFFFFFFFFE#64 0x1000000000000000#64 (by cases v <;> decide)

theorem writeByte (b : BitVec 8) : Statement (.writeByte b) :=
  masked (BitVec.allOnes 8 ++ BitVec.allOnes 48 ++ 0#8) 0x1100000000000000#64 (by
    rw [wordWriteByte, and_fields, and_none]
    decide)

theorem writeGap (d : BitVec 32) : Statement (.writeGap d) :=
  masked (BitVec.allOnes 8 ++ BitVec.allOnes 24 ++ 0#32) 0x1200000000000000#64 (by
    rw [wordWriteGap, and_fields, and_none]
    decide)

theorem writeReset : Statement .writeReset := by
  show _ = _
  decide

theorem writeBlock (page : BitVec 8) (lock : Bool) (addr : BitVec 3) (data : DataWord) :
    Statement (.writeBlock page lock addr data) :=
  masked (BitVec.allOnes 8 ++ 0#8 ++ BitVec.allOnes 4 ++ 0#1 ++ 0#3 ++ BitVec.allOnes 8 ++ 0#32)
    0x2000000000000000#64 (by
      rw [wordWriteBlock]
      simp only [and_fields, and_none]
      decide)

theorem writeFormat (fmt : BitVec 8) (idlen : BitVec 4) (id : BitVec 40) : Statement (.writeFormat fmt idlen id) :=
  masked (BitVec.allOnes 8 ++ 0#8 ++ 0#4 ++ BitVec.allOnes 4 ++ 0#40) 0x3000000000000000#64 (by
    rw [wordWriteFormat]
    simp only [and_fields, and_none]
    decide)

theorem writeEm (id : BitVec 40) : Statement (.writeEm id) :=
  masked (BitVec.allOnes 8 ++ BitVec.allOnes 8 ++ BitVec.allOnes 4 ++ BitVec.allOnes 4 ++ 0#40)
    0x3000500000000000#64 (by
      rw [wordWriteEm, wordWriteFormat]
      simp only [and_fields, and_none]
      decide)

theorem writeHid (id : BitVec 24) : Statement (.writeHid id) :=
  masked (BitVec.allOnes 8 ++ BitVec.allOnes 8 ++ BitVec.allOnes 4 ++ BitVec.allOnes 4 ++ (BitVec.allOnes 16 ++ 0#24))
    0x3001300000000000#64 (by
      rw [wordWriteHid, wordWriteFormat]
      simp only [and_fields, and_none]
      decide)

theorem airWritePage0 (lock : Bool) (data : DataWord) (addr : BitVec 3) : Statement (.airWritePage0 lock data addr) :=
  masked (BitVec.allOnes 2 ++ 0#1 ++ 0#32 ++ 0#3) 0x2000000000#38 (by
    rw [writeFrame]
    simp only [and_fields, and_none]
    decide)

theorem airWritePage1 (lock : Bool) (data : DataWord) (addr : BitVec 3) : Statement (.airWritePage1 lock data addr) :=
  masked (BitVec.allOnes 2 ++ 0#1 ++ 0#32 ++ 0#3) 0x3000000000#38 (by
    rw [writeFrame]
    simp only [and_fields, and_none]
    decide)

theorem airReset : Statement .airReset := by
  show _ = _
  decide

end Sys2Proof.Laws.EncodingMatchesRow
end

