-- ==== Sys2Proof/Laws/Step.lean ====
section
/-! SUPPORT. What a step can do: whose turn it is, when an agent's step is enabled, and what that step is. -/

namespace Sys2Proof.Machine

/-! Whose turn it is. -/

theorem step_agent {s : State} {a : Agent} {ts : List Turn} (h : s.turns = .agent a :: ts) :
    step s = agentStep a { s with turns := ts } := by
  simp [step, machineStep, h]

theorem step_reset {s : State} {ts : List Turn} (h : s.turns = .systemReset :: ts) :
    step s = .next (systemReset { s with turns := ts }) := by
  simp [step, machineStep, h]

theorem step_default {s : State} (h : s.turns = []) : step s = agentStep (defaultAgent s) s := by
  simp [step, machineStep, h]

/-! An agent's step. -/

theorem agentStep_disabled {a : Agent} {s : State} (h : agentEnabled a s = false) : agentStep a s = .next s := by
  simp [agentStep, h]

theorem agentStep_host {s : State} (h : hostEnabled s = true) : agentStep .host s = hostStep s :=
  if_pos h

theorem agentStep_handler {s : State} (h : handlerEnabled s = true) : agentStep .handler s = handlerStep s :=
  if_pos h

theorem agentStep_block {s : State} (h : s.pending ≠ []) : agentStep .block s = .next (blockStep s) :=
  if_pos ((busy_eq_true_iff s).2 h)

theorem hostMayIssue_iff (s : State) :
    hostMayIssue s = true ↔ s.inSession = false ∧ (s.issuer ≠ .host ∨ s.pending = []) := by
  have := busy_eq_false_iff s
  unfold hostMayIssue hostBlocked
  cases hb : s.busy <;> cases hi : s.inSession <;> simp_all

theorem hostStep_issue {s : State} {w : CommandWord} {q : List HostAction} (h : s.hostQueue = .issue w :: q) :
    hostStep s = issueBy .host w { s with hostQueue := q } := by
  simp [hostStep, h]

theorem hostStep_writeMask {s : State} {b : Bool} {q : List HostAction} (h : s.hostQueue = .writeMask b :: q) :
    hostStep s = .next { s with gmask := b, hostQueue := q } := by
  simp [hostStep, h]

theorem hostStep_readStatus {s : State} {q : List HostAction} (h : s.hostQueue = .readStatus :: q) :
    hostStep s = .next (readStatus { s with hostQueue := q }) := by
  simp [hostStep, h]

theorem handlerStep_issue {s : State} {w : CommandWord} {q : List HandlerAction}
    (h : s.handlerQueue = .issue w :: q) :
    handlerStep s = issueBy .handler w { s with handlerQueue := q } := by
  simp [handlerStep, h]

theorem handlerStep_readStatus {s : State} {q : List HandlerAction} (h : s.handlerQueue = .readStatus :: q) :
    handlerStep s = .next (readStatus { s with handlerQueue := q }) := by
  simp [handlerStep, h]

theorem runWord_of_instr {w : CommandWord} {i : Instr} (h : decodeCommand w = .instr i) (s : State) :
    runWord w s = exec i s := by
  simp [runWord, h]

theorem runWord_of_rejected {w : CommandWord} {r : CommandReject} (h : decodeCommand w = .rejected r) (s : State) :
    runWord w s = .next (issue (.fails (rejectCode r)) s) := by
  simp [runWord, h]

/-- The acceptance a word at the command port is issued with: the decoded instruction's, or the fault of the check
the word fails. -/
def issuesWith (w : CommandWord) (s : State) (acc : Acceptance) : Prop :=
  (∃ i, decodeCommand w = .instr i ∧ acc = acceptanceOf i s) ∨ ∃ c, c ≠ .none ∧ acc = .fails c

/-- A word at the command port is issued, decodable or not: it always answers a next state. -/
theorem runWord_issue (w : CommandWord) (s : State) :
    ∃ acc, issuesWith w s acc ∧ runWord w s = .next (issue acc s) := by
  rcases runWord_cases w s with ⟨i, hi, hr⟩ | ⟨r, -, hr⟩
  · exact ⟨_, .inl ⟨i, hi, rfl⟩, by rw [hr, exec_eq_issue]⟩
  · exact ⟨_, .inr ⟨_, rejectCode_ne_none r, rfl⟩, hr⟩

/-- What a word at the command port leads to: an issue. -/
theorem runWord_next {w : CommandWord} {s t : State} (h : runWord w s = .next t) :
    ∃ acc, issuesWith w s acc ∧ t = issue acc s := by
  obtain ⟨acc, ha, hr⟩ := runWord_issue w s
  rw [hr] at h
  exact ⟨acc, ha, (Host.Outcome.next.inj h).symm⟩

/-- Which agent issues, and what lets it; the block issues nothing (60 R245). -/
def mayIssue (a : Agent) (s : State) : Prop :=
  match a with
  | .host => hostMayIssue s = true
  | .handler => s.gmask = false
  | .block => False

/-- The ways a step goes from one state to another, in the words of the agents. -/
inductive StepCase (s t : State) : Prop where
  | reset (ts : List Turn) (h : s.turns = .systemReset :: ts) (ht : t = systemReset { s with turns := ts })
  | block (ts : List Turn) (hp : s.pending ≠ []) (ht : t = blockStep { s with turns := ts })
  | issued (ts : List Turn) (hq : List HostAction) (lq : List HandlerAction) (a : Agent) (w : CommandWord)
      (acc : Acceptance) (who : mayIssue a s)
      (hacc : issuesWith w
        { s with turns := ts, hostQueue := hq, handlerQueue := lq, issuer := issuerAfter a s } acc)
      (ht : t = issue acc
        { s with turns := ts, hostQueue := hq, handlerQueue := lq, issuer := issuerAfter a s })
  | maskWritten (ts : List Turn) (q : List HostAction) (b : Bool) (h : s.hostQueue = .writeMask b :: q)
      (hp : s.pending = []) (ht : t = { s with turns := ts, hostQueue := q, gmask := b })
  | statusRead (ts : List Turn) (hq : List HostAction) (lq : List HandlerAction)
      (ht : t = readStatus { s with turns := ts, hostQueue := hq, handlerQueue := lq })
  | passed (ts : List Turn) (ht : t = { s with turns := ts })

theorem agentStep_case (a : Agent) {s t : State} {ts : List Turn}
    (h : agentStep a { s with turns := ts } = .next t) : StepCase s t := by
  by_cases he : agentEnabled a { s with turns := ts } = true
  · cases a with
    | host =>
      rw [agentStep_host he] at h
      cases hq : s.hostQueue with
      | nil => simp [agentEnabled, hostEnabled, hq] at he
      | cons x q =>
        cases x with
        | issue w =>
          rw [hostStep_issue (s := { s with turns := ts }) (q := q) (w := w) hq] at h
          have hm : hostMayIssue s = true := by
            simp only [agentEnabled, hostEnabled, hq] at he
            exact he
          obtain ⟨acc, hi, hacc⟩ := runWord_next h
          exact .issued ts q s.handlerQueue .host w acc hm hi hacc
        | writeMask b =>
          rw [hostStep_writeMask (s := { s with turns := ts }) (q := q) (b := b) hq] at h
          have hm : s.pending = [] := by
            simp only [agentEnabled, hostEnabled, hq, hostMayWriteMask, Bool.not_eq_true'] at he
            exact (busy_eq_false_iff s).1 he
          exact .maskWritten ts q b hq hm (Host.Outcome.next.inj h).symm
        | readStatus =>
          rw [hostStep_readStatus (s := { s with turns := ts }) (q := q) hq] at h
          exact .statusRead ts q s.handlerQueue (Host.Outcome.next.inj h).symm
    | handler =>
      rw [agentStep_handler he] at h
      have hm : s.gmask = false := by
        simp only [agentEnabled, handlerEnabled, handlerMayMove, Bool.and_eq_true, Bool.not_eq_true'] at he
        exact he.2
      cases hq : s.handlerQueue with
      | nil => simp [agentEnabled, handlerEnabled, hq] at he
      | cons x q =>
        cases x with
        | issue w =>
          rw [handlerStep_issue (s := { s with turns := ts }) (q := q) (w := w) hq] at h
          obtain ⟨acc, hi, hacc⟩ := runWord_next h
          exact .issued ts s.hostQueue q .handler w acc hm hi hacc
        | readStatus =>
          rw [handlerStep_readStatus (s := { s with turns := ts }) (q := q) hq] at h
          exact .statusRead ts s.hostQueue q (Host.Outcome.next.inj h).symm
    | block =>
      have hp : s.pending ≠ [] := (busy_eq_true_iff s).1 he
      rw [agentStep_block (s := { s with turns := ts }) hp] at h
      exact .block ts hp (Host.Outcome.next.inj h).symm
  · rw [agentStep_disabled (by simpa using he)] at h
    exact .passed ts (Host.Outcome.next.inj h).symm

/-- Everything a step can do. -/
theorem step_cases {s t : State} (h : step s = .next t) : StepCase s t := by
  cases hts : s.turns with
  | nil =>
    rw [step_default hts] at h
    exact agentStep_case (defaultAgent s) (ts := s.turns) h
  | cons x ts =>
    cases x with
    | agent a =>
      rw [step_agent hts] at h
      exact agentStep_case a h
    | systemReset =>
      rw [step_reset hts] at h
      exact .reset ts hts (Host.Outcome.next.inj h).symm

/-! Whose step the next one is, by an explicit turn or by default. -/

/-- The host thread's step, where its first action has one. -/
theorem step_hostMoves {s : State} {x : HostAction} {q : List HostAction} {ts : List Turn}
    (h : s.hostMoves x q ts) (he : hostEnabled s = true) : step s = hostStep { s with turns := ts } := by
  rcases h.1 with ht | ⟨ht, rfl, hp⟩
  · rw [step_agent ht, agentStep_host (s := { s with turns := ts }) he]
  · have hd : defaultAgent s = .host := by
      simp [defaultAgent, (busy_eq_false_iff s).2 hp, he]
    rw [step_default ht, hd, agentStep_host he]
    obtain ⟨⟩ := s
    subst ht
    rfl

/-- The handlers' step, while the mask is clear. -/
theorem step_handlerMoves {s : State} {x : HandlerAction} {q : List HandlerAction} {ts : List Turn}
    (h : s.handlerMoves x q ts) (hg : s.gmask = false) : step s = handlerStep { s with turns := ts } := by
  have he : handlerEnabled s = true := by simp [handlerEnabled, h.2, handlerMayMove, hg]
  rcases h.1 with ht | ⟨ht, rfl, hp, hq⟩
  · rw [step_agent ht, agentStep_handler (s := { s with turns := ts }) he]
  · have hd : defaultAgent s = .handler := by
      simp [defaultAgent, (busy_eq_false_iff s).2 hp, hostEnabled, hq]
    rw [step_default ht, hd, agentStep_handler he]
    obtain ⟨⟩ := s
    subst ht
    rfl

/-- The host thread's issue: the word is run with the host thread noted as the issuer. -/
theorem step_hostIssue {s : State} {w : CommandWord} {q : List HostAction} {ts : List Turn}
    (h : s.hostMoves (.issue w) q ts) (hm : hostMayIssue s = true) :
    step s = runWord w { s with turns := ts, hostQueue := q, issuer := issuerAfter .host s } := by
  rw [step_hostMoves h (by simpa [hostEnabled, h.2] using hm), hostStep_issue (s := { s with turns := ts }) h.2]
  rfl

/-- The handlers' issue: the word is run with the issuer noted. -/
theorem step_handlerIssue {s : State} {w : CommandWord} {q : List HandlerAction} {ts : List Turn}
    (h : s.handlerMoves (.issue w) q ts) (hg : s.gmask = false) :
    step s = runWord w { s with turns := ts, handlerQueue := q, issuer := issuerAfter .handler s } := by
  rw [step_handlerMoves h hg, handlerStep_issue (s := { s with turns := ts }) h.2]
  rfl

end Sys2Proof.Machine
end

