-- ==== Sys2Proof/Tests/Slice0.lean ====
section
/-! SUPPORT. Tests: ill-formed terms refused, words written out from the encodings of spec/30_encoding.md, the
vectors of spec/95_test_vectors.md, and for every statement with hypotheses a state that meets them. -/

namespace Sys2Proof.Tests

open Sys2Proof.Machine

/-! States. -/

/-- After reset, with the host's interrupts enabled (95: "Start: reset state, gmask 0"). -/
def idle : State := { State.reset with gmask := false }

/-- The carrier running, nothing in flight (95 §2.1: "carrier = Running"). -/
def running : State := { idle with carrier := .running, pins := .configured }

/-- Inside a session: a hold pending (95 §2.5). -/
def inSession : State :=
  { running with
    gmask := true, inSession := true, phase := .dataBlockSent, dblk := 1#3, issuer := .host,
    pending := [.delay 56, .pause, .delay 18, .resume, .maskExit, .stop] }

/-- Inside the gap of a bit cell (95 §2.3: STATUS 0x181). -/
def paused : State := { running with carrier := .paused, issuer := .host, pending := [.delay 18, .resume] }

/-- Halted by INVALID_PAGE, torn down (95 §2.6). -/
def halted : State := { idle with fault := .invalidPage }

/-- A descriptor with a stub encoder of three words (95 P3). -/
def stubHid : FormatDescriptor := { Config.hid with encode := fun _ => [1#32, 2#32, 3#32] }

/-- The extra descriptor of 95 §2.5 with `data_page = 2`. -/
def stubPage2 : FormatDescriptor :=
  { tag := 2#8, idBytes := 1, nwords := 1, config := 0#32, dataPage := 2#8, encode := fun _ => [0#32] }

/-- A host action at the host thread's turn. -/
def hostDoes (x : HostAction) (s : State) : State := { s with turns := [.agent .host], hostQueue := [x] }

/-- A handler's action at the handlers' turn. -/
def handlerDoes (x : HandlerAction) (s : State) : State := { s with turns := [.agent .handler], handlerQueue := [x] }

/-- A micro-operation at the head of what is pending. -/
def withOp (op : MicroOp) (s : State) : State := { s with pending := [op] }

/-! Ill-formed terms. -/

theorem test_wf_refuses_em_alias : (Instr.writeFormat 0#8 5#4 0x8967452301#40).wf = false := by decide
theorem test_wf_refuses_hid_alias : (Instr.writeFormat 1#8 3#4 0x563412#40).wf = false := by decide
theorem test_wf_admits_hid_tail : (Instr.writeFormat 1#8 3#4 0x1000563412#40).wf = true := by decide
theorem test_timing_refuses_equal_holds :
    ({ TimingProfile.reference with data0 := 56 } : TimingProfile).wf = false := by decide
theorem test_timing_refuses_short_program :
    ({ TimingProfile.reference with program := 56 } : TimingProfile).wf = false := by decide
theorem test_timing_admits_reference : TimingProfile.reference.wf = true := by decide
theorem test_descriptor_refuses_no_bytes : ({ stubPage2 with idBytes := 0 } : FormatDescriptor).wf = false := by decide
theorem test_descriptor_refuses_six_bytes : ({ stubPage2 with idBytes := 6 } : FormatDescriptor).wf = false := by decide
theorem test_descriptor_refuses_no_words : ({ stubPage2 with nwords := 0 } : FormatDescriptor).wf = false := by decide
theorem test_descriptor_refuses_eight_words :
    ({ stubPage2 with nwords := 8 } : FormatDescriptor).wf = false := by decide
theorem test_formats_refuse_missing_em : formatsWf [Config.hid] = false := by decide
theorem test_formats_refuse_missing_hid : formatsWf [Config.em] = false := by decide
theorem test_formats_refuse_repeated_tag :
    formatsWf [Config.em, Config.hid, { stubPage2 with tag := 1#8 }] = false := by decide
theorem test_formats_refuse_bad_descriptor :
    formatsWf [Config.em, Config.hid, { stubPage2 with nwords := 8 }] = false := by decide
theorem test_formats_admit_page_two : formatsWf [Config.em, Config.hid, stubPage2] = true := by decide

/-! Decoding: words written out bit by bit (30 R72 to R79, R84, R85; 95 §2.1). -/

theorem test_decode_carrierStart :
    decodeTableWord 64 0b0000000100000000000000000000000000000000000000000000000000000000
      = some .carrierStart := by decide
theorem test_decode_carrierStop :
    decodeTableWord 64 0b0000001000000000000000000000000000000000000000000000000000000000
      = some .carrierStop := by decide
theorem test_decode_writeBit :
    decodeTableWord 64 0b0001000000000000000000000000000000000000000000000000000000000001
      = some (.writeBit true) := by decide
theorem test_decode_writeByte :
    decodeTableWord 64 0b0001000100000000000000000000000000000000000000000000000010110000
      = some (.writeByte 0xB0#8) := by decide
theorem test_decode_writeGap :
    decodeTableWord 64 0b0001001000000000000000000000000000000000000000000000000000011110
      = some (.writeGap 30#32) := by decide
theorem test_decode_writeReset :
    decodeTableWord 64 0b0001001100000000000000000000000000000000000000000000000000000000
      = some .writeReset := by decide
/-- PAGE 1, LOCK 1, ADDR 6, DATA 0xDEADBEEF. -/
theorem test_decode_writeBlock :
    decodeTableWord 64 0b0010000000000001000011100000000011011110101011011011111011101111
      = some (.writeBlock 1#8 true 6#3 0xDEADBEEF#32) := by decide
/-- FMT 2, IDLEN 1, ID 0xA5. -/
theorem test_decode_writeFormat :
    decodeTableWord 64 0b0011000000000010000100000000000000000000000000000000000010100101
      = some (.writeFormat 2#8 1#4 0xA5#40) := by decide
theorem test_decode_writeEm :
    decodeTableWord 64 0b0011000000000000010100001000100101100111010001010010001100000001
      = some (.writeEm 0x8967452301#40) := by decide
theorem test_decode_writeHid :
    decodeTableWord 64 0b0011000000000001001100000000000000000000010101100011010000010010
      = some (.writeHid 0x563412#24) := by decide
theorem test_decode_airWritePage0 :
    decodeTableWord 40 0b10011011110101011011011111011101111001
      = some (.airWritePage0 false 0xDEADBEEF#32 1#3) := by decide
theorem test_decode_airWritePage1 :
    decodeTableWord 40 0b11100000000000000000000000000000000111
      = some (.airWritePage1 true 0#32 7#3) := by decide
theorem test_decode_airReset : decodeTableWord 8 0b10 = some .airReset := by decide

/-- The rejections of 95 §2.1: unassigned opcodes and reserved bits. -/
theorem test_decode_illegal :
    decodeCommand 0#64 = .rejected .illegalOpcode
    ∧ decodeCommand 0xFF00000000000000#64 = .rejected .illegalOpcode
    ∧ decodeCommand 0x2100000000000000#64 = .rejected .illegalOpcode := by decide
theorem test_decode_reserved :
    decodeCommand 0x0100000000000001#64 = .rejected .reservedBits
    ∧ decodeCommand 0x1000000000000002#64 = .rejected .reservedBits
    ∧ decodeCommand 0x1100000000000100#64 = .rejected .reservedBits
    ∧ decodeCommand 0x1200000100000000#64 = .rejected .reservedBits
    ∧ decodeCommand 0x2000100000000000#64 = .rejected .reservedBits
    ∧ decodeCommand 0x2000000100000000#64 = .rejected .reservedBits
    ∧ decodeCommand 0x3001310000563412#64 = .rejected .reservedBits := by decide
theorem test_decode_no_frame :
    decode (.frame (.write 0#38)) = .rejected .notAFrame ∧ decode (.frame (.write 0x1FFFFFFFFF#38)) = .rejected .notAFrame
    ∧ decode (.frame (.reset 0#2)) = .rejected .notAFrame ∧ decode (.frame (.reset 3#2)) = .rejected .notAFrame := by
  decide

/-! Bit order, frames, durations (95 §1 S3, §2.3, §2.4) over the reference timing. -/

/-- S3: byte 0b10110000 is emitted 0,0,0,0,1,1,0,1. -/
theorem test_byte_order : lsbFirst 0xB0#8 = [false, false, false, false, true, true, false, true] := by decide
theorem test_address_order : msbFirst 0b110#3 = [true, true, false] := by decide
theorem test_frame_number_page0 : writeFrame 0b10#2 false 0xDEADBEEF#32 1#3 = 0x26F56DF779#38 := by decide
theorem test_frame_number_em_config : writeFrame 0b10#2 false 0x60148040#32 0#3 = 0x2300A40200#38 := by decide
theorem test_bit_cell : bitx TimingProfile.reference true = [.delay 56, .pause, .delay 18, .resume] := by decide
theorem test_byte_clocks :
    clocks (bytex TimingProfile.reference 0xB0#8) = 432 ∧ clocks (bytex TimingProfile.reference 0x01#8) = 368 := by decide
theorem test_reset_clocks : clocks (rstx TimingProfile.reference) = 146 := by decide
theorem test_block_clocks_page0 : clocks (blkx TimingProfile.reference 0#8 1#3 false 0xDEADBEEF#32) = 4104 := by decide +kernel
theorem test_block_clocks_page1 : clocks (blkx TimingProfile.reference 1#8 7#3 true 0#32) = 3464 := by decide +kernel
theorem test_hid_clocks : clocks (fmtx TimingProfile.reference stubHid [1#32, 2#32, 3#32]) = 13810 := by decide +kernel
/-- 95 §2.5: an EM session with `P = 0`. -/
theorem test_em_clocks : clocks (fmtx TimingProfile.reference Config.em [0#32, 0#32]) = 10314 := by decide +kernel

/-! STATUS (95). -/

theorem test_status_running : running.status = 0x140#32 := by decide
theorem test_status_paused : paused.status = 0x181#32 := by decide
theorem test_status_in_session : inSession.status = 0x5B41#32 := by decide
theorem test_status_halted : halted.status = 0x6#32 := by decide
theorem test_status_saved : ({ idle with savedMask := true } : State).status = 0x400#32 := by decide

/-! The commands, one step each (95 §2.1 to §2.6). -/

theorem test_carrierStart_latches :
    exec .carrierStart idle = .next { idle with pending := [.start], cmdLatch := 0x0100000000000000#64 } := by rfl
/-- Events EvFault(7), then the teardown. -/
theorem test_carrierStart_running_faults :
    exec .carrierStart running = .next { running with
      fault := .carrierState, trace := [.fault .carrierState], pending := [.stop, .pinsReset, .setPhase .idle 0#3] } := by
  rfl
theorem test_carrierStop_at_rest :
    exec .carrierStop idle = .next { idle with pending := [.stop, .pinsReset], cmdLatch := 0x0200000000000000#64 } := by
  rfl
theorem test_writeBit_stopped_faults :
    exec (.writeBit true) idle = .next { idle with
      fault := .carrierState, trace := [.fault .carrierState], pending := [.setPhase .idle 0#3] } := by rfl
theorem test_writeByte_latches :
    exec (.writeByte 0xB0#8) running = .next { running with
      pending := bytex Config.timing 0xB0#8, cmdLatch := 0x11000000000000B0#64 } := by rfl
/-- 95 §2.3: no wrap of the largest duration. -/
theorem test_writeGap_largest :
    exec (.writeGap 0xFFFFFFFF#32) running = .next { running with
      pending := [.pause, .delay 4294967295, .resume], cmdLatch := 0x12000000FFFFFFFF#64 } := by rfl
theorem test_writeReset_loads :
    exec .writeReset running = .next { running with
      pending := rstx Config.timing, cmdLatch := 0x1300000000000000#64 } := by rfl
/-- PAGE 2 is accepted (95 §2.1). -/
theorem test_writeBlock_page2_accepted :
    exec (.writeBlock 2#8 false 1#3 0#32) running = .next { running with
      pending := blkx Config.timing 2#8 1#3 false 0#32, cmdLatch := 0x2002010000000000#64 } := by rfl
/-- FMT 1 with IDLEN 4: BAD_ID_LENGTH (95 §2.1). -/
theorem test_writeFormat_bad_length :
    exec (.writeFormat 1#8 4#4 0x563412#40) idle = .next { idle with
      fault := .badIdLength, trace := [.fault .badIdLength], pending := [.setPhase .idle 0#3] } := by rfl
/-- FMT 1, IDLEN 3 with byte 4 = 0x10: RESERVED_NONZERO (95 §2.1). -/
theorem test_writeFormat_tail :
    exec (.writeFormat 1#8 3#4 0x1000563412#40) idle = .next { idle with
      fault := .reservedNonzero, trace := [.fault .reservedNonzero], pending := [.setPhase .idle 0#3] } := by rfl
theorem test_writeEm_running_faults : exec (.writeEm 0x8967452301#40) running = .next (raiseFault .carrierState running) := by
  rfl
/-- 30 R54: block 1 is the low half of the encoder's word. -/
theorem test_writeEm_payload :
    exec (.writeEm 0x8967452301#40) idle = .next { idle with
      pending := fmtx Config.timing Config.em
        [(Config.encEm [0x01#8, 0x23#8, 0x45#8, 0x67#8, 0x89#8]).extractLsb' 0 32,
         (Config.encEm [0x01#8, 0x23#8, 0x45#8, 0x67#8, 0x89#8]).extractLsb' 32 32],
      payload := [(Config.encEm [0x01#8, 0x23#8, 0x45#8, 0x67#8, 0x89#8]).extractLsb' 0 32,
         (Config.encEm [0x01#8, 0x23#8, 0x45#8, 0x67#8, 0x89#8]).extractLsb' 32 32],
      cmdLatch := 0x3000508967452301#64 } := by rfl
theorem test_writeHid_running_faults : exec (.writeHid 0x563412#24) running = .next (raiseFault .carrierState running) := by
  rfl
theorem test_airReset_loads :
    exec .airReset running = .next { running with
      pending := rstx Config.timing, cmdLatch := 0x1300000000000000#64 } := by rfl
/-- 30 R86: a write frame of page 1 is emitted by the block write of page 1. -/
theorem test_airWritePage1_loads :
    exec (.airWritePage1 true 0#32 7#3) running = .next { running with
      pending := blkx Config.timing 1#8 7#3 true 0#32, cmdLatch := 0x20010F0000000000#64 } := by rfl
theorem test_airWritePage1_stopped_faults :
    exec (.airWritePage1 true 0#32 7#3) idle = .next (raiseFault .carrierState idle) := by rfl

/-! Concurrency and the agents (95 §2.6, P5). -/

theorem test_concurrent :
    exec (.writeBit true) paused = .next { paused with
      fault := .concurrentCommand, trace := [.fault .concurrentCommand],
      pending := [.stop, .pinsReset, .setPhase .idle 0#3] } := by rfl
/-- A halted block ignores even an illegal word. -/
theorem test_halted_ignores_illegal : step (hostDoes (.issue 0#64) halted) = .next halted := by rfl
/-- Inside a session the handlers have no step. -/
theorem test_session_masks_handlers :
    step (handlerDoes (.issue 0#64) inSession) = .next { handlerDoes (.issue 0#64) inSession with turns := [] } := by rfl
/-- The next step after reset runs a placed word. -/
theorem test_fetch_from_reset :
    step (State.reset.withFetchWord 64 0x0100000000000000)
      = .next { State.reset with issuer := .host, pending := [.start], cmdLatch := 0x0100000000000000#64 } := by rfl
/-- A frame is placed as the command that emits it; a number that is no frame places nothing. -/
theorem test_fetch_frame :
    running.withFetchWord 40 0x3800000007 = { running with
      hostQueue := [.issue 0x20010F0000000000#64], turns := [.agent .host] }
    ∧ running.withFetchWord 8 3 = running := ⟨rfl, rfl⟩
/-- A busy block moves on its own turn as it does by default. -/
theorem test_block_turn :
    step { paused with turns := [.agent .block] } = step paused := by rfl

/-! Witnesses: for each statement with hypotheses, states and operands that meet them. -/

theorem idle_ready : idle.ready := ⟨rfl, rfl⟩
theorem running_ready : running.ready := ⟨rfl, rfl⟩

theorem witness_ResetSetsEveryBlockField : ({ inSession with turns := [.systemReset] } : State).turns = .systemReset :: [] := rfl

/-- The host thread's move: at its own turn on a busy block, and by default on an idle one. -/
theorem witness_hostMoves (x : HostAction) :
    (hostDoes x inSession).hostMoves x [] [] ∧ ({ idle with hostQueue := [x] } : State).hostMoves x [] [] :=
  ⟨⟨.inl rfl, rfl⟩, ⟨.inr ⟨rfl, rfl, rfl⟩, rfl⟩⟩
/-- The handlers' move, likewise. -/
theorem witness_handlerMoves (x : HandlerAction) :
    (handlerDoes x paused).handlerMoves x [] [] ∧ ({ idle with handlerQueue := [x] } : State).handlerMoves x [] [] :=
  ⟨⟨.inl rfl, rfl⟩, ⟨.inr ⟨rfl, rfl, rfl, rfl⟩, rfl⟩⟩

theorem witness_StatusReadChangesNothing :
    (hostDoes .readStatus inSession).hostMoves .readStatus [] []
    ∧ (handlerDoes .readStatus paused).handlerMoves .readStatus [] [] ∧ (handlerDoes .readStatus paused).gmask = false :=
  ⟨(witness_hostMoves _).1, (witness_handlerMoves _).1, rfl⟩

/-- Both disjuncts: nothing pending, or a handler's command in flight. -/
theorem witness_StepRunsHostCommand :
    (hostDoes (.issue 0x0100000000000000#64) idle).hostMoves (.issue 0x0100000000000000#64) [] []
    ∧ (hostDoes (.issue 0x0100000000000000#64) idle).inSession = false
    ∧ (hostDoes (.issue 0x0100000000000000#64) idle).pending = []
    ∧ (hostDoes (.issue 0x0100000000000000#64) { paused with issuer := .handler }).inSession = false
    ∧ (hostDoes (.issue 0x0100000000000000#64) { paused with issuer := .handler }).issuer ≠ .host
    ∧ decode (.command 0x0100000000000000#64) = .instr .carrierStart :=
  ⟨⟨.inl rfl, rfl⟩, rfl, rfl, rfl, by decide, by decide⟩
theorem witness_StepRunsHandlerCommand :
    (handlerDoes (.issue 0x1000000000000001#64) paused).handlerMoves (.issue 0x1000000000000001#64) [] []
    ∧ (handlerDoes (.issue 0x1000000000000001#64) paused).gmask = false
    ∧ decode (.command 0x1000000000000001#64) = .instr (.writeBit true) := ⟨⟨.inl rfl, rfl⟩, rfl, by decide⟩
theorem witness_StepRunsAirFrame :
    decode (.frame (.reset 0b10#2)) = .instr .airReset
    ∧ issuedFor (.frame (.reset 0b10#2)) = some 0x1300000000000000#64
    ∧ (hostDoes (.issue 0x1300000000000000#64) running).hostMoves (.issue 0x1300000000000000#64) [] []
    ∧ (hostDoes (.issue 0x1300000000000000#64) running).inSession = false
    ∧ (hostDoes (.issue 0x1300000000000000#64) running).pending = [] :=
  ⟨by decide, by decide, ⟨.inl rfl, rfl⟩, rfl, rfl⟩
theorem witness_PlacedWordRunsNext :
    running.ready ∧ running.inSession = false ∧ decodeTableWord 64 0x1300000000000000 = some .writeReset
    ∧ decodeTableWord 8 2 = some .airReset := ⟨running_ready, rfl, rfl, rfl⟩

/-- Unassigned opcodes at both ends, at a host issue and at a handler's issue. -/
theorem witness_UndecodableWordFaults :
    ((hostDoes (.issue 0#64) idle).hostMoves (.issue 0#64) [] [] ∧ (hostDoes (.issue 0#64) idle).inSession = false
      ∧ (hostDoes (.issue 0#64) idle).ready)
    ∧ ((handlerDoes (.issue 0#64) idle).handlerMoves (.issue 0#64) [] [] ∧ (handlerDoes (.issue 0#64) idle).gmask = false
      ∧ (handlerDoes (.issue 0#64) idle).ready)
    ∧ (0#64).extractLsb' 56 8 ∉ [0x01#8, 0x02#8, 0x10#8, 0x11#8, 0x12#8, 0x13#8, 0x20#8, 0x30#8]
    ∧ (0xFF00000000000000#64).extractLsb' 56 8
      ∉ [0x01#8, 0x02#8, 0x10#8, 0x11#8, 0x12#8, 0x13#8, 0x20#8, 0x30#8] :=
  ⟨⟨⟨.inl rfl, rfl⟩, rfl, ⟨rfl, rfl⟩⟩, ⟨⟨.inl rfl, rfl⟩, rfl, ⟨rfl, rfl⟩⟩, by decide, by decide⟩
/-- One reserved bit for each opcode, the lowest or the highest one. -/
theorem witness_UndecodableWordFaults_reserved :
    (0x0100000000000001#64 &&& 0x00FFFFFFFFFFFFFF#64 &&& ~~~0#64 ≠ 0)
    ∧ (0x0280000000000000#64 &&& 0x00FFFFFFFFFFFFFF#64 &&& ~~~0#64 ≠ 0)
    ∧ (0x1000000000000002#64 &&& 0x00FFFFFFFFFFFFFF#64 &&& ~~~0x1#64 ≠ 0)
    ∧ (0x1100000000000100#64 &&& 0x00FFFFFFFFFFFFFF#64 &&& ~~~0xFF#64 ≠ 0)
    ∧ (0x1200000100000000#64 &&& 0x00FFFFFFFFFFFFFF#64 &&& ~~~0xFFFFFFFF#64 ≠ 0)
    ∧ (0x1300000000000001#64 &&& 0x00FFFFFFFFFFFFFF#64 &&& ~~~0#64 ≠ 0)
    ∧ (0x2000100000000000#64 &&& 0x00FFFFFFFFFFFFFF#64 &&& ~~~0x00FF0F00FFFFFFFF#64 ≠ 0)
    ∧ (0x3001310000563412#64 &&& 0x00FFFFFFFFFFFFFF#64 &&& ~~~0x00FFF0FFFFFFFFFF#64 ≠ 0) := by decide

theorem witness_HaltedBlockIgnoresEveryIssue :
    (hostDoes (.issue 0#64) halted).turns = .agent .host :: [] ∧ (hostDoes (.issue 0#64) halted).inSession = false
    ∧ (hostDoes (.issue 0#64) halted).pending = []
    ∧ (hostDoes (.issue 0#64) halted).fault ≠ .none
    ∧ (handlerDoes (.issue 0#64) halted).gmask = false ∧ (handlerDoes (.issue 0#64) halted).fault ≠ .none := by decide
/-- The handlers while the host thread's byte is in flight, and the host thread while a handler's is. -/
theorem witness_ConcurrentIssueFaults :
    (paused.fault = .none ∧ paused.pending ≠ [])
    ∧ ((handlerDoes (.issue 0#64) paused).handlerMoves (.issue 0#64) [] [] ∧ (handlerDoes (.issue 0#64) paused).gmask = false)
    ∧ ((hostDoes (.issue 0#64) { paused with issuer := .handler }).hostMoves (.issue 0#64) [] []
      ∧ (hostDoes (.issue 0#64) { paused with issuer := .handler }).inSession = false
      ∧ (hostDoes (.issue 0#64) { paused with issuer := .handler }).issuer ≠ .host) :=
  ⟨by decide, ⟨⟨.inl rfl, rfl⟩, rfl⟩, ⟨⟨.inl rfl, rfl⟩, rfl, by decide⟩⟩
/-- Outside and inside a session, with the carrier on and off. -/
theorem witness_FaultTearsDown :
    FaultCode.invalidPage ≠ .none ∧ (inSession.fault = .none ∧ inSession.turns = [] ∧ inSession.inSession = true)
    ∧ (idle.fault = .none ∧ idle.turns = [] ∧ idle.inSession = false ∧ idle.carrier = .stopped) := by decide
theorem witness_WrongCarrierFaults :
    (running.ready ∧ running.carrier ≠ .stopped) ∧ (idle.ready ∧ idle.carrier ≠ .running) :=
  ⟨⟨running_ready, by decide⟩, ⟨idle_ready, by decide⟩⟩
/-- An accepted word and a faulting one of the host thread, an accepted one of the handlers. -/
theorem witness_AcceptedWordIsLatched :
    (hostDoes (.issue 0x0100000000000000#64) idle).ready
    ∧ (hostDoes (.issue 0x0100000000000000#64) idle).hostMoves (.issue 0x0100000000000000#64) [] []
    ∧ (∃ t, step (hostDoes (.issue 0x0100000000000000#64) idle) = .next t ∧ t.fault = .none)
    ∧ (∃ t, step (hostDoes (.issue 0#64) idle) = .next t ∧ t.fault ≠ .none)
    ∧ (handlerDoes (.issue 0x0100000000000000#64) idle).handlerMoves (.issue 0x0100000000000000#64) [] []
    ∧ (∃ t, step (handlerDoes (.issue 0x0100000000000000#64) idle) = .next t ∧ t.fault = .none) :=
  ⟨⟨rfl, rfl⟩, ⟨.inl rfl, rfl⟩, ⟨_, rfl, rfl⟩, ⟨_, rfl, by decide⟩, ⟨.inl rfl, rfl⟩, ⟨_, rfl, rfl⟩⟩

/-- The block's move: by default, and at its own turn. -/
theorem blockMoves_withOp (op : MicroOp) {s : State} (h : s.turns = []) :
    (withOp op s).blockMoves op [] [] ∧ ({ withOp op s with turns := [.agent .block] } : State).blockMoves op [] [] :=
  ⟨⟨.inr ⟨h, rfl⟩, rfl⟩, ⟨.inl rfl, rfl⟩⟩

theorem witness_CarrierMicroOps :
    (withOp .start idle).blockMoves .start [] [] ∧ (withOp .stop running).blockMoves .stop [] []
    ∧ (withOp .pinsReset running).blockMoves .pinsReset [] [] :=
  ⟨(blockMoves_withOp _ rfl).1, (blockMoves_withOp _ rfl).1, (blockMoves_withOp _ rfl).1⟩
/-- In the right and in the wrong carrier state. -/
theorem witness_GapMicroOps :
    ((withOp .pause running).blockMoves .pause [] [] ∧ (withOp .pause running).carrier = .running)
    ∧ ((withOp .pause idle).blockMoves .pause [] [] ∧ (withOp .pause idle).carrier ≠ .running)
    ∧ ((withOp .resume paused).blockMoves .resume [] [] ∧ (withOp .resume paused).carrier = .paused)
    ∧ ((withOp .resume idle).blockMoves .resume [] [] ∧ (withOp .resume idle).carrier ≠ .paused) :=
  ⟨⟨(blockMoves_withOp _ rfl).1, rfl⟩, ⟨(blockMoves_withOp _ rfl).1, by decide⟩, ⟨(blockMoves_withOp _ rfl).1, rfl⟩,
    ⟨(blockMoves_withOp _ rfl).1, by decide⟩⟩
theorem witness_DelayMicroOp :
    paused.blockMoves (.delay 18) [.resume] []
    ∧ ({ paused with turns := [.agent .block, .agent .host] } : State).blockMoves (.delay 18) [.resume] [.agent .host] :=
  ⟨⟨.inr ⟨rfl, rfl⟩, rfl⟩, ⟨.inl rfl, rfl⟩⟩
theorem witness_MaskMicroOps :
    (withOp .maskEnter running).blockMoves .maskEnter [] [] ∧ (withOp .maskExit inSession).blockMoves .maskExit [] [] :=
  ⟨(blockMoves_withOp _ rfl).1, (blockMoves_withOp _ rfl).1⟩
theorem witness_CheckAndPhaseMicroOps :
    (withOp (.checkPage 0#8) running).blockMoves (.checkPage 0#8) [] []
    ∧ (withOp (.checkPage 1#8) running).blockMoves (.checkPage 1#8) [] []
    ∧ ((withOp (.checkPage 2#8) running).blockMoves (.checkPage 2#8) [] [] ∧ 2#8 ≠ 0#8 ∧ 2#8 ≠ 1#8)
    ∧ ((withOp (.checkPage 255#8) running).blockMoves (.checkPage 255#8) [] [] ∧ 255#8 ≠ 0#8 ∧ 255#8 ≠ 1#8)
    ∧ (withOp (.setPhase .resetSent 7#3) running).blockMoves (.setPhase .resetSent 7#3) [] [] :=
  ⟨(blockMoves_withOp _ rfl).1, (blockMoves_withOp _ rfl).1, ⟨(blockMoves_withOp _ rfl).1, by decide⟩,
    ⟨(blockMoves_withOp _ rfl).1, by decide⟩, (blockMoves_withOp _ rfl).1⟩
theorem witness_IdleBlockHasNoStep :
    ({ idle with turns := [.agent .block] } : State).turns = .agent .block :: []
    ∧ ({ idle with turns := [.agent .block] } : State).pending = [] := ⟨rfl, rfl⟩
theorem witness_MicroOpTimeAndPayload :
    inSession.gmask = true ∧ inSession.pending ≠ [] ∧ inSession.inSession = true ∧ paused.inSession = false
    ∧ inSession.payload.length ≤ 7 := by decide

theorem witness_CarrierStartCompletes : idle.ready ∧ idle.carrier = .stopped ∧ idle.turns = [] := ⟨idle_ready, rfl, rfl⟩
theorem witness_CarrierStopCompletes : running.ready ∧ running.turns = [] := ⟨running_ready, rfl⟩
/-- Also of WriteByteCompletes, WriteGapCompletes, WriteResetCompletes and AirFramesComplete. -/
theorem witness_WriteBitCompletes : running.ready ∧ running.carrier = .running ∧ running.turns = [] :=
  ⟨running_ready, rfl, rfl⟩
theorem witness_WriteBlockCompletes :
    running.ready ∧ running.carrier = .running ∧ running.turns = [] ∧ (0#8 = 0#8 ∨ 0#8 = 1#8) ∧ (1#8 = 0#8 ∨ 1#8 = 1#8) :=
  ⟨running_ready, rfl, rfl, by decide, by decide⟩
theorem witness_WriteBlockInvalidPageFaults :
    running.ready ∧ running.carrier = .running ∧ running.inSession = false ∧ running.turns = []
    ∧ (2#8 ≠ 0#8 ∧ 2#8 ≠ 1#8) ∧ (255#8 ≠ 0#8 ∧ 255#8 ≠ 1#8) := ⟨running_ready, rfl, rfl, rfl, by decide, by decide⟩
theorem witness_WriteFormatChecksInOrder : idle.ready := idle_ready
theorem witness_WriteFormatCompletes :
    idle.ready ∧ idle.carrier = .stopped ∧ idle.inSession = false ∧ idle.turns = []
    ∧ Config.lookup 0#8 = some Config.em ∧ (5#4).toNat = Config.em.idBytes ∧ idTailZero 5#4 0x8967452301#40 = true
    ∧ (Config.em.encode (idBytes 5#4 0x8967452301#40)).length = Config.em.nwords
    ∧ (Config.em.dataPage = 0#8 ∨ Config.em.dataPage = 1#8) :=
  ⟨idle_ready, rfl, rfl, rfl, rfl, rfl, rfl, rfl, .inl rfl⟩
/-- Also of WriteHidCompletes. -/
theorem witness_WriteEmCompletes : idle.ready ∧ idle.carrier = .stopped ∧ idle.inSession = false ∧ idle.turns = [] :=
  ⟨idle_ready, rfl, rfl, rfl⟩
theorem witness_DescriptorSessionCompletes :
    idle.ready ∧ idle.carrier = .stopped ∧ idle.inSession = false ∧ idle.turns = []
    ∧ (3#4).toNat = stubHid.idBytes ∧ idTailZero 3#4 0x563412#40 = true
    ∧ stubHid.encode (idBytes 3#4 0x563412#40) = [1#32, 2#32, 3#32] ∧ [1#32, 2#32, 3#32].length = stubHid.nwords
    ∧ (stubHid.dataPage = 0#8 ∨ stubHid.dataPage = 1#8) :=
  ⟨idle_ready, rfl, rfl, rfl, rfl, by decide, rfl, rfl, .inl rfl⟩
theorem witness_AirFramesNeedTheCarrier : idle.ready ∧ idle.carrier ≠ .running := ⟨idle_ready, by decide⟩

theorem witness_SessionInvalidPageTearsDown :
    ({ idle with pending := fmtx Config.timing stubPage2 [0#32] } : State).pending = fmtx Config.timing stubPage2 (0#32 :: [])
    ∧ idle.fault = .none ∧ idle.carrier = .stopped ∧ idle.inSession = false ∧ idle.turns = []
    ∧ stubPage2.dataPage ≠ 0#8 ∧ stubPage2.dataPage ≠ 1#8 := ⟨rfl, rfl, rfl, rfl, rfl, by decide, by decide⟩
/-- Also of SessionDuration. -/
theorem witness_BlockWriteDuration :
    ((0#8 = 0#8 ∨ 0#8 = 1#8) ∧ (1#8 = 0#8 ∨ 1#8 = 1#8)) ∧ (stubHid.dataPage = 0#8 ∨ stubHid.dataPage = 1#8) :=
  ⟨by decide, .inl rfl⟩

theorem witness_BlockedAgentsDoNothing :
    ((hostDoes (.issue 0#64) paused).issuer = .host ∧ (hostDoes (.issue 0#64) paused).pending ≠ [])
    ∧ (hostDoes (.issue 0#64) { inSession with issuer := .handler }).inSession = true
    ∧ ((hostDoes (.writeMask true) paused).hostQueue = .writeMask true :: [] ∧ (hostDoes (.writeMask true) paused).pending ≠ [])
    ∧ ((handlerDoes (.issue 0#64) inSession).turns = .agent .handler :: [] ∧ (handlerDoes (.issue 0#64) inSession).gmask = true) := by
  decide
theorem witness_HostWritesMaskWhenIdle :
    (hostDoes (.writeMask true) idle).hostMoves (.writeMask true) [] [] ∧ (hostDoes (.writeMask true) idle).pending = [] :=
  ⟨⟨.inl rfl, rfl⟩, rfl⟩
/-- Of the statements about every step: a step of the block, of the host thread and of the system reset. -/
theorem witness_every_step :
    (∃ t, step paused = .next t) ∧ (∃ t, step (hostDoes (.writeMask true) idle) = .next t)
    ∧ (∃ t, step { inSession with turns := [.systemReset] } = .next t) := ⟨⟨_, rfl⟩, ⟨_, rfl⟩, ⟨_, rfl⟩⟩
theorem witness_IdleBlockChangesOnlyByIssueOrReset : idle.pending = [] ∧ ∃ t, step idle = .next t := ⟨rfl, _, rfl⟩
theorem witness_FaultCodeIsSticky :
    (∃ t, step (hostDoes (.issue 0#64) halted) = .next t) ∧ halted.fault ≠ .none := ⟨⟨_, rfl⟩, by decide⟩
theorem witness_BusyBlockBecomesIdle : inSession.turns = [] := rfl

theorem witness_StepKeepsInvariant : StateInvariant paused ∧ ∃ t, step paused = .next t :=
  ⟨⟨by decide, by decide, by decide, by decide⟩, ⟨_, rfl⟩⟩
/-- A paused carrier, a Pause, a Resume and a Start pending, a session, a halted idle block. -/
theorem witness_InvariantGivesStateInvariants :
    (StateInvariant paused ∧ paused.carrier = .paused ∧ paused.fault = .none)
    ∧ StateInvariant { running with pending := [.pause, .resume] }
    ∧ StateInvariant { paused with pending := [.resume] }
    ∧ StateInvariant { idle with pending := [.start] }
    ∧ (StateInvariant inSession ∧ inSession.inSession = true)
    ∧ (StateInvariant halted ∧ halted.pending = [] ∧ halted.fault ≠ .none) := by
  refine ⟨⟨?_, by decide, by decide⟩, ?_, ?_, ?_, ⟨?_, by decide⟩, ⟨?_, by decide, by decide⟩⟩ <;>
    exact ⟨by decide, by decide, by decide, by decide⟩

theorem witness_DecodeEncodeAgree :
    (Instr.writeFormat 2#8 1#4 0xA5#40).wf = true ∧ (Instr.writeEm 0#40).wf = true ∧ Instr.airReset.wf = true := by decide
theorem witness_DecodedWordReencodes :
    decode (.command 0x20010F0000000000#64) = .instr (.writeBlock 1#8 true 7#3 0#32) := by decide
theorem witness_ConfigurationIsWellFormed : Config.lookup 1#8 = some Config.hid := rfl

end Sys2Proof.Tests
end

section
/-! The built-in entries of the format table (10 R24, R25): they stand in front of the further formats,
so the lookup answers them whatever the open entries are. -/

namespace Sys2Proof

/-- EM is the first entry of the table, so no open entry can hide it. -/
theorem lookup_tag_zero : Config.lookup 0#8 = some Config.em := by
  have em_matches : (Config.em.tag == 0#8) = true := by decide
  simp only [Config.lookup, Config.formats, List.find?_cons, em_matches]

/-- HID is the second entry: EM before it has another tag, and no open entry stands in front. -/
theorem lookup_tag_one : Config.lookup 1#8 = some Config.hid := by
  have em_differs : (Config.em.tag == 1#8) = false := by decide
  have hid_matches : (Config.hid.tag == 1#8) = true := by decide
  simp only [Config.lookup, Config.formats, List.find?_cons, em_differs, hid_matches]

/-- Settles O60: the lookup reaches the two built-in entries, whose fields are those of 10 R24 and R25. -/
theorem builtInDescriptors : Obligations.BuiltInDescriptors := by
  unfold Obligations.BuiltInDescriptors
  constructor
  · exact ⟨Config.em, lookup_tag_zero, rfl, rfl, rfl, rfl, rfl, fun _ => rfl⟩
  · exact ⟨Config.hid, lookup_tag_one, rfl, rfl, rfl, rfl, rfl, fun _ => rfl⟩

end Sys2Proof
end

section
/-! The STATUS word (30 R83) by its fields: each field stands above those appended after it,
so it is read back as it was put in. -/

namespace Sys2Proof.Machine

/-- The last field appended is read back at the bottom. -/
theorem extractLsb'_append_last {v w : Nat} (x : BitVec v) (y : BitVec w) : (x ++ y).extractLsb' 0 w = y := by
  rw [BitVec.extractLsb'_append_eq_of_add_le (by omega), BitVec.extractLsb'_eq_self]

/-- A one-bit field as a flag. -/
theorem getLsbD_of_field {n : Nat} {x : BitVec n} {i : Nat} {b : Bool} (h : x.extractLsb' i 1 = BitVec.ofBool b) :
    x.getLsbD i = b := by
  rw [BitVec.getLsbD_eq_extractLsb', h]
  cases b <;> rfl

/-- Every field of STATUS at its place, by the model's own codes: what was appended below a field is skipped,
then the field is the last one. -/
theorem status_fields (s : State) :
    s.status.extractLsb' 0 1 = BitVec.ofBool s.busy
    ∧ s.status.extractLsb' 1 1 = BitVec.ofBool s.halted
    ∧ s.status.extractLsb' 2 4 = s.fault.code
    ∧ s.status.extractLsb' 6 2 = s.carrier.code
    ∧ s.status.extractLsb' 8 1 = s.pins.code
    ∧ s.status.extractLsb' 9 1 = BitVec.ofBool s.inSession
    ∧ s.status.extractLsb' 10 1 = BitVec.ofBool s.savedMask
    ∧ s.status.extractLsb' 11 3 = s.phase.code
    ∧ s.status.extractLsb' 14 3 = s.dblk
    ∧ s.status.extractLsb' 17 15 = 0#15 := by
  rw [State.status]
  refine ⟨?_, ?_, ?_, ?_, ?_, ?_, ?_, ?_, ?_, ?reserved⟩
  all_goals repeat rw [BitVec.extractLsb'_append_eq_of_le (by decide)]
  case reserved => exact BitVec.extractLsb'_eq_self
  all_goals exact extractLsb'_append_last _ _

theorem status_reset : State.reset.status = 0#32 := by decide

/-! The derived flags as the obligation words them (10 R37). -/

theorem busy_eq_decide (s : State) : s.busy = decide (s.pending ≠ []) := by
  rw [Bool.eq_iff_iff, busy_eq_true_iff, decide_eq_true_iff]

theorem halted_eq_decide (s : State) : s.halted = decide (s.fault ≠ .none) := by
  rw [Bool.eq_iff_iff, halted_eq_true_iff, decide_eq_true_iff]

/-- Settles O3: each field is read back from the concatenation, and its code table agrees with R83's. -/
theorem statusWordLayout : Obligations.StatusWordLayout := by
  refine ⟨status_reset, fun s => ?_⟩
  obtain ⟨hbusy, hhalted, hfault, hcarrier, hpins, hsession, hsaved, hphase, hdblk, hreserved⟩ := status_fields s
  refine ⟨?busy, ?halted, ?fault, ?carrier, ?pins, getLsbD_of_field hsession, getLsbD_of_field hsaved, ?phase,
    hdblk, hreserved⟩
  case busy => rw [getLsbD_of_field hbusy, busy_eq_decide]
  case halted => rw [getLsbD_of_field hhalted, halted_eq_decide]
  case fault => rw [hfault]; cases s.fault <;> rfl
  case carrier => rw [hcarrier]; cases s.carrier <;> rfl
  case pins => rw [hpins]; cases s.pins <;> rfl
  case phase => rw [hphase]; cases s.phase <;> rfl

end Sys2Proof.Machine
end

section
/-! The pseudo-instructions (30 R89): encoded and issued as the WRITE_FORMAT they stand for. -/

namespace Sys2Proof.Machine

/-- A HID identifier as an `ID` operand: the two bytes above the third are zero. -/
theorem hidId_setWidth (id : BitVec 24) : id.setWidth 40 = 0#16 ++ id :=
  BitVec.setWidth_eq_append (by decide)

/-- WRITE_FORMAT issues its own acceptance. -/
theorem exec_writeFormat (fmt : BitVec 8) (idlen : BitVec 4) (id : BitVec 40) (s : State) :
    exec (.writeFormat fmt idlen id) s = .next (issue (formatAcceptance fmt idlen id s) s) :=
  exec_eq_issue _ s

/-- Settles O35: both sides encode by `wordWriteFormat` and issue the same `formatAcceptance`; for HID the
operand's zero bytes are the widening of the 24-bit identifier. -/
theorem pseudoInstructionsAreWriteFormat : Obligations.PseudoInstructionsAreWriteFormat := by
  refine ⟨fun id s => ⟨rfl, ?emEffect⟩, fun id s => ?hid⟩
  case emEffect => rw [exec_writeFormat, exec_eq_issue, acceptanceOf]
  case hid =>
    rw [hidId_setWidth]
    constructor
    case left => rfl
    case right => rw [exec_writeFormat, exec_eq_issue, acceptanceOf]

end Sys2Proof.Machine
end

section
/-! The critical section's micro-operations, the page check and the phase write (40 R108 to R111): the effect
of each, and the block's step that performs it. -/

namespace Sys2Proof.Machine

/-- 40 R108. -/
theorem perform_maskEnter (s : State) :
    perform .maskEnter s =
      { s with savedMask := s.gmask, gmask := true, inSession := true, trace := s.trace ++ [.mask s.gmask] } := rfl

/-- 40 R109: the saved mask itself is kept. -/
theorem perform_maskExit (s : State) :
    perform .maskExit s =
      { s with gmask := s.savedMask, inSession := false, trace := s.trace ++ [.unmask s.savedMask] } := rfl

/-- 40 R110, first branch. -/
theorem perform_checkPage_of_valid {p : BitVec 8} (h : p = 0#8 ∨ p = 1#8) (s : State) :
    perform (.checkPage p) s = s := if_pos h

/-- 40 R110, second branch. -/
theorem perform_checkPage_of_invalid {p : BitVec 8} (h : ¬ (p = 0#8 ∨ p = 1#8)) (s : State) :
    perform (.checkPage p) s = raiseFault .invalidPage s := if_neg h

/-- 40 R111. -/
theorem perform_setPhase (ph : Phase) (i : BitVec 3) (s : State) :
    perform (.setPhase ph i) s = { s with phase := ph, dblk := i } := rfl

/-- Settles O18: the block's step performs the head of what is pending, here the mask's entry or exit. -/
theorem maskMicroOps : Obligations.MaskMicroOps := by
  intro s rest ts
  constructor
  case left =>
    intro moves
    rw [step_blockMoves moves, perform_maskEnter]
  case right =>
    intro moves
    rw [step_blockMoves moves, perform_maskExit]

/-- Settles O19: the block's step performs the head of what is pending; for a page check, by the branch its
page selects. -/
theorem checkAndPhaseMicroOps : Obligations.CheckAndPhaseMicroOps := by
  intro s rest ts p ph i
  refine ⟨?validPage, ?invalidPage, ?setPhase⟩
  case validPage =>
    intro moves valid
    rw [step_blockMoves moves, perform_checkPage_of_valid valid]
  case invalidPage =>
    intro moves not_zero not_one
    rw [step_blockMoves moves, perform_checkPage_of_invalid (not_or.2 ⟨not_zero, not_one⟩)]
  case setPhase =>
    intro moves
    rw [step_blockMoves moves, perform_setPhase]

end Sys2Proof.Machine
end

section
/-! The byte write (41 R142, R143): its expansion cell by cell, its acceptance and its run. -/

namespace Sys2Proof.Machine

/-- The bits of a byte in emission order, written out. -/
theorem lsbFirst_byte (b : BitVec 8) :
    lsbFirst b = [b.getLsbD 0, b.getLsbD 1, b.getLsbD 2, b.getLsbD 3, b.getLsbD 4, b.getLsbD 5, b.getLsbD 6,
      b.getLsbD 7] := rfl

/-- 41 R143: the expansion of a byte, written out. -/
theorem bytex_eq_bits (t : TimingProfile) (b : BitVec 8) :
    bytex t b = bitx t (b.getLsbD 0) ++ bitx t (b.getLsbD 1) ++ bitx t (b.getLsbD 2) ++ bitx t (b.getLsbD 3)
      ++ bitx t (b.getLsbD 4) ++ bitx t (b.getLsbD 5) ++ bitx t (b.getLsbD 6) ++ bitx t (b.getLsbD 7) := by
  simp only [bytex, cellsx, lsbFirst_byte, List.flatMap_cons, List.flatMap_nil, List.append_nil, List.append_assoc]

theorem bytex_length (t : TimingProfile) (b : BitVec 8) : (bytex t b).length = 32 := by
  rw [bytex, cellsx_length, lsbFirst_length]

/-- A byte plays the cells of its bits, bit 0 first. -/
theorem plays_bytex (t : TimingProfile) (b : BitVec 8) : plays (bytex t b) (cellsEvents t (lsbFirst b)) :=
  plays_cellsx t (lsbFirst b)

/-- 41 R142 on a ready block with the carrier running: the checks pass and the expansion is loaded. -/
theorem exec_writeByte_accepts {s : State} (b : BitVec 8) (hr : s.ready) (hc : s.carrier = .running) :
    exec (.writeByte b) s = .next (s.load ⟨bytex Config.timing b, wordWriteByte b, none⟩) := by
  rw [exec_eq_issue, acceptanceOf, needCarrier_of_eq hc, issue_accepts _ hr]

/-- Settles O25: the loaded expansion is the eight cells of the byte's bits, and it plays their events. -/
theorem writeByteCompletes : Obligations.WriteByteCompletes := by
  intro s b hr hc
  refine ⟨_, exec_writeByte_accepts b hr hc, ?loaded, bytex_length Config.timing b, fun ht => ?run⟩
  case loaded => rw [← bytex_eq_bits]; rfl
  case run =>
    have run := runsTo_load_of_plays (e := ⟨bytex Config.timing b, wordWriteByte b, none⟩)
      (plays_bytex Config.timing b) hr ht hc rfl
    rwa [bytex_length, lsbFirst_byte] at run

end Sys2Proof.Machine
end

section
/-! The system reset (10 R39, 70 R270): at a reset turn the step is `systemReset`, which takes every piece of
block state from `State.reset`. -/

namespace Sys2Proof.Machine

/-- Settles O1: the step at a reset turn is `systemReset`, each of whose block fields is that of `State.reset`,
where R39's value stands. -/
theorem resetSetsEveryBlockField : Obligations.ResetSetsEveryBlockField := by
  intro s ts reset_turn
  exact ⟨systemReset { s with turns := ts }, step_reset reset_turn, systemReset_carrier _, systemReset_pins _,
    systemReset_inSession _, systemReset_savedMask _, systemReset_pending _, systemReset_fault _,
    systemReset_phase _, systemReset_dblk _, systemReset_cmdLatch _, systemReset_trace _, systemReset_gmask _⟩

end Sys2Proof.Machine
end

section
/-! The decoder and the encoder (30 R70 to R90): each opcode selects one row of the table; a row's word is the
encoding of the fields the decoder reads from it, and the other way round. -/

namespace Sys2Proof

/-! The decoder, row by row. -/

theorem decodeCommand_carrierStart {w : CommandWord} (h : opcode w = 0x01#8) :
    decodeCommand w = rowWord w 0xFFFFFFFFFFFFFFFF#64 0x0100000000000000#64 .carrierStart := by
  simp [decodeCommand, h]

theorem decodeCommand_carrierStop {w : CommandWord} (h : opcode w = 0x02#8) :
    decodeCommand w = rowWord w 0xFFFFFFFFFFFFFFFF#64 0x0200000000000000#64 .carrierStop := by
  simp [decodeCommand, h]

theorem decodeCommand_writeBit {w : CommandWord} (h : opcode w = 0x10#8) :
    decodeCommand w = rowWord w 0xFFFFFFFFFFFFFFFE#64 0x1000000000000000#64 (.writeBit (flag w 0)) := by
  simp [decodeCommand, h]

theorem decodeCommand_writeByte {w : CommandWord} (h : opcode w = 0x11#8) :
    decodeCommand w = rowWord w 0xFFFFFFFFFFFFFF00#64 0x1100000000000000#64 (.writeByte (field w 0 8)) := by
  simp [decodeCommand, h]

theorem decodeCommand_writeGap {w : CommandWord} (h : opcode w = 0x12#8) :
    decodeCommand w = rowWord w 0xFFFFFFFF00000000#64 0x1200000000000000#64 (.writeGap (field w 0 32)) := by
  simp [decodeCommand, h]

theorem decodeCommand_writeReset {w : CommandWord} (h : opcode w = 0x13#8) :
    decodeCommand w = rowWord w 0xFFFFFFFFFFFFFFFF#64 0x1300000000000000#64 .writeReset := by
  simp [decodeCommand, h]

theorem decodeCommand_writeBlock {w : CommandWord} (h : opcode w = 0x20#8) :
    decodeCommand w = rowWord w 0xFF00F0FF00000000#64 0x2000000000000000#64
      (.writeBlock (field w 48 8) (flag w 43) (field w 40 3) (field w 0 32)) := by
  simp [decodeCommand, h]

theorem decodeCommand_writeFormat {w : CommandWord} (h : opcode w = 0x30#8) :
    decodeCommand w = rowWord w 0xFF000F0000000000#64 0x3000000000000000#64 (buildFormat w) := by
  simp [decodeCommand, h]

theorem decodeCommand_unassigned {w : CommandWord}
    (h : opcode w ∉ [0x01#8, 0x02#8, 0x10#8, 0x11#8, 0x12#8, 0x13#8, 0x20#8, 0x30#8]) :
    decodeCommand w = .rejected .illegalOpcode := by
  simp only [List.mem_cons, List.not_mem_nil, or_false, not_or] at h
  simp [decodeCommand, h]

theorem rowWord_of_match {w mask bits : CommandWord} (h : w &&& mask = bits) (i : Instr) :
    rowWord w mask bits i = .instr i := if_pos h

theorem rowWord_of_mismatch {w mask bits : CommandWord} (h : w &&& mask ≠ bits) (i : Instr) :
    rowWord w mask bits i = .rejected .reservedBits := if_neg h

/-- The opcode-table law of an encoding, as the decoder's comparison with its row. -/
theorem rowWord_of_law {i : Instr} {w mask bits : CommandWord} (law : Laws.EncodingMatchesRow.Statement i)
    (hw : encode i = .command w) (hrow : Laws.EncodingMatchesRow.row i = (mask.toNat, bits.toNat)) (j : Instr) :
    rowWord w mask bits j = .instr j := by
  refine rowWord_of_match (BitVec.eq_of_toNat_eq ?_) j
  rw [Laws.EncodingMatchesRow.Statement, hw, hrow] at law
  rw [BitVec.toNat_and]
  exact law

/-! Decoding an encoding: the fields are read back from the concatenation. -/

theorem decodeCommand_wordWriteBit (v : Bool) : decodeCommand (wordWriteBit v) = .instr (.writeBit v) := by
  cases v <;> decide

theorem decodeCommand_wordWriteByte (b : BitVec 8) : decodeCommand (wordWriteByte b) = .instr (.writeByte b) := by
  have hop : opcode (wordWriteByte b) = 0x11#8 := by
    rw [opcode, wordWriteByte, field_append_high _ _ (by decide)]
    decide
  have hb : field (wordWriteByte b) 0 8 = b := by rw [wordWriteByte, field_append_low _ _ (by decide), field_whole]
  rw [decodeCommand_writeByte hop, rowWord_of_law (Laws.EncodingMatchesRow.writeByte b) rfl (by rfl), hb]

theorem decodeCommand_wordWriteGap (d : BitVec 32) : decodeCommand (wordWriteGap d) = .instr (.writeGap d) := by
  have hop : opcode (wordWriteGap d) = 0x12#8 := by
    rw [opcode, wordWriteGap, field_append_high _ _ (by decide)]
    decide
  have hd : field (wordWriteGap d) 0 32 = d := by rw [wordWriteGap, field_append_low _ _ (by decide), field_whole]
  rw [decodeCommand_writeGap hop, rowWord_of_law (Laws.EncodingMatchesRow.writeGap d) rfl (by rfl), hd]

/-- The fields of a WRITE_BLOCK word (30 R77). -/
theorem wordWriteBlock_fields (page : BitVec 8) (lock : Bool) (addr : BitVec 3) (data : DataWord) :
    opcode (wordWriteBlock page lock addr data) = 0x20#8
    ∧ field (wordWriteBlock page lock addr data) 48 8 = page
    ∧ flag (wordWriteBlock page lock addr data) 43 = lock
    ∧ field (wordWriteBlock page lock addr data) 40 3 = addr
    ∧ field (wordWriteBlock page lock addr data) 0 32 = data := by
  rw [opcode, wordWriteBlock]
  refine ⟨?_, ?_, ?_, ?_, by rw [field_append_low _ _ (by decide), field_whole]⟩
  · repeat rw [field_append_high _ _ (by decide)]
    exact field_whole _
  · rw [field_append_high _ _ (by decide), field_append_high _ _ (by decide), field_append_high _ _ (by decide),
      field_append_high _ _ (by decide), field_append_high _ _ (by decide), field_append_low _ _ (by decide),
      field_whole]
  · rw [flag_append_high _ _ (by decide), flag_append_high _ _ (by decide), flag_append_high _ _ (by decide),
      flag_append_low _ _ (by decide), flag_ofBool]
  · rw [field_append_high _ _ (by decide), field_append_high _ _ (by decide), field_append_low _ _ (by decide),
      field_whole]

theorem decodeCommand_wordWriteBlock (page : BitVec 8) (lock : Bool) (addr : BitVec 3) (data : DataWord) :
    decodeCommand (wordWriteBlock page lock addr data) = .instr (.writeBlock page lock addr data) := by
  obtain ⟨hop, hpage, hlock, haddr, hdata⟩ := wordWriteBlock_fields page lock addr data
  rw [decodeCommand_writeBlock hop,
    rowWord_of_law (Laws.EncodingMatchesRow.writeBlock page lock addr data) rfl (by rfl), hpage, hlock, haddr, hdata]

/-- The fields of a WRITE_FORMAT word (30 R78). -/
theorem wordWriteFormat_fields (fmt : BitVec 8) (idlen : BitVec 4) (id : BitVec 40) :
    opcode (wordWriteFormat fmt idlen id) = 0x30#8
    ∧ field (wordWriteFormat fmt idlen id) 48 8 = fmt
    ∧ field (wordWriteFormat fmt idlen id) 44 4 = idlen
    ∧ field (wordWriteFormat fmt idlen id) 0 40 = id := by
  rw [opcode, wordWriteFormat]
  refine ⟨?_, ?_, ?_, by rw [field_append_low _ _ (by decide), field_whole]⟩
  · repeat rw [field_append_high _ _ (by decide)]
    exact field_whole _
  · rw [field_append_high _ _ (by decide), field_append_high _ _ (by decide), field_append_high _ _ (by decide),
      field_append_low _ _ (by decide), field_whole]
  · rw [field_append_high _ _ (by decide), field_append_high _ _ (by decide), field_append_low _ _ (by decide),
      field_whole]

/-- A WRITE_FORMAT word decodes to the most specific row for it (log 4). -/
theorem decodeCommand_wordWriteFormat (fmt : BitVec 8) (idlen : BitVec 4) (id : BitVec 40) :
    decodeCommand (wordWriteFormat fmt idlen id) = .instr (buildFormat (wordWriteFormat fmt idlen id)) := by
  rw [decodeCommand_writeFormat (wordWriteFormat_fields fmt idlen id).1,
    rowWord_of_law (Laws.EncodingMatchesRow.writeFormat fmt idlen id) rfl (by rfl)]

theorem buildFormat_wordWriteFormat {fmt : BitVec 8} {idlen : BitVec 4} {id : BitVec 40}
    (h : (Instr.writeFormat fmt idlen id).wf = true) :
    buildFormat (wordWriteFormat fmt idlen id) = .writeFormat fmt idlen id := by
  obtain ⟨-, hfmt, hidlen, hid⟩ := wordWriteFormat_fields fmt idlen id
  simp only [Instr.wf, Bool.and_eq_true, Bool.not_eq_true'] at h
  simp [buildFormat, hfmt, hidlen, hid, h]

theorem buildFormat_wordWriteEm (id : BitVec 40) : buildFormat (wordWriteEm id) = .writeEm id := by
  obtain ⟨-, hfmt, hidlen, hid⟩ := wordWriteFormat_fields 0#8 5#4 id
  simp [buildFormat, wordWriteEm, hfmt, hidlen, hid, isEmWord]

theorem buildFormat_wordWriteHid (id : BitVec 24) : buildFormat (wordWriteHid id) = .writeHid id := by
  obtain ⟨-, hfmt, hidlen, hid⟩ := wordWriteFormat_fields 1#8 3#4 (0#16 ++ id)
  have above : (0#16 ++ id).extractLsb' 24 16 = 0#16 := by rw [extract_append_high _ _ (by decide), extract_whole]
  have operand : field (wordWriteFormat 1#8 3#4 (0#16 ++ id)) 0 24 = id := by
    rw [wordWriteFormat, field_append_low _ _ (by decide), field_append_low _ _ (by decide), field_whole]
  simp [buildFormat, wordWriteHid, hfmt, hidlen, hid, operand, isEmWord, isHidWord, above]

theorem decodeCommand_wordWriteEm (id : BitVec 40) : decodeCommand (wordWriteEm id) = .instr (.writeEm id) := by
  rw [wordWriteEm, decodeCommand_wordWriteFormat, ← wordWriteEm, buildFormat_wordWriteEm]

theorem decodeCommand_wordWriteHid (id : BitVec 24) : decodeCommand (wordWriteHid id) = .instr (.writeHid id) := by
  rw [wordWriteHid, decodeCommand_wordWriteFormat, ← wordWriteHid, buildFormat_wordWriteHid]

/-! Frames. -/

/-- The fields of a write frame (30 R84). -/
theorem writeFrame_fields (opc : BitVec 2) (lock : Bool) (data : DataWord) (addr : BitVec 3) :
    field (writeFrame opc lock data addr) 36 2 = opc
    ∧ flag (writeFrame opc lock data addr) 35 = lock
    ∧ field (writeFrame opc lock data addr) 3 32 = data
    ∧ field (writeFrame opc lock data addr) 0 3 = addr := by
  rw [writeFrame]
  refine ⟨?_, ?_, ?_, by rw [field_append_low _ _ (by decide), field_whole]⟩
  · repeat rw [field_append_high _ _ (by decide)]
    exact field_whole _
  · rw [flag_append_high _ _ (by decide), flag_append_high _ _ (by decide), flag_append_low _ _ (by decide),
      flag_ofBool]
  · rw [field_append_high _ _ (by decide), field_append_low _ _ (by decide), field_whole]

theorem decodeFrame_page0 (lock : Bool) (data : DataWord) (addr : BitVec 3) :
    decodeFrame (.write (writeFrame 0b10#2 lock data addr)) = .instr (.airWritePage0 lock data addr) := by
  obtain ⟨hopc, hlock, hdata, haddr⟩ := writeFrame_fields 0b10#2 lock data addr
  simp [decodeFrame, hopc, hlock, hdata, haddr]

theorem decodeFrame_page1 (lock : Bool) (data : DataWord) (addr : BitVec 3) :
    decodeFrame (.write (writeFrame 0b11#2 lock data addr)) = .instr (.airWritePage1 lock data addr) := by
  obtain ⟨hopc, hlock, hdata, haddr⟩ := writeFrame_fields 0b11#2 lock data addr
  simp [decodeFrame, hopc, hlock, hdata, haddr]

/-- Settles O56, row by row: the opcode selects the row, the row's mask matches its encoding, and the fields are
those that were concatenated. -/
theorem decodeEncodeAgree : Obligations.DecodeEncodeAgree := by
  intro i hwf
  cases i with
  | carrierStart | carrierStop | writeReset | airReset => decide
  | writeBit v => exact (Machine.decode_command_iff _ _).2 (decodeCommand_wordWriteBit v)
  | writeByte b => exact (Machine.decode_command_iff _ _).2 (decodeCommand_wordWriteByte b)
  | writeGap d => exact (Machine.decode_command_iff _ _).2 (decodeCommand_wordWriteGap d)
  | writeBlock page lock addr data =>
    exact (Machine.decode_command_iff _ _).2 (decodeCommand_wordWriteBlock page lock addr data)
  | writeFormat fmt idlen id =>
    exact (Machine.decode_command_iff _ _).2 (by rw [decodeCommand_wordWriteFormat, buildFormat_wordWriteFormat hwf])
  | writeEm id =>
    exact (Machine.decode_command_iff _ _).2 (decodeCommand_wordWriteEm id)
  | writeHid id =>
    exact (Machine.decode_command_iff _ _).2 (decodeCommand_wordWriteHid id)
  | airWritePage0 lock data addr => exact decodeFrame_page0 lock data addr
  | airWritePage1 lock data addr => exact decodeFrame_page1 lock data addr

end Sys2Proof
end

section
/-! Words that decode (30 R70, R81): under a row's mask every reserved field is the match's, so the word is the
concatenation of its named fields and the row's constants. -/

namespace Sys2Proof

/-- A word that matches a row without operands is the row's match. -/
theorem eq_of_full_mask {w bits : CommandWord} (h : w &&& 0xFFFFFFFFFFFFFFFF#64 = bits) : bits = w := by
  rw [← h, show (0xFFFFFFFFFFFFFFFF#64) = BitVec.allOnes 64 by decide, BitVec.and_allOnes]

/-- A constant of a row is the word's field where the row's mask is all ones. -/
theorem const_eq_field {w mask bits : CommandWord} (h : w &&& mask = bits) (lo : Nat) {n : Nat} (k : BitVec n)
    (hm : field mask lo n = BitVec.allOnes n) (hb : field bits lo n = k) : k = field w lo n := by
  rw [field_of_mask h lo n hm, hb]

/-- Two fields join where the upper one begins at the end of the lower one. -/
theorem field_join {m : Nat} (w : BitVec m) {hi lo a b : Nat} (h : hi = lo + b) :
    field w hi a ++ field w lo b = field w lo (a + b) := by
  rw [h, field_append_field]

theorem wordWriteBit_of_match {w : CommandWord} (h : w &&& 0xFFFFFFFFFFFFFFFE#64 = 0x1000000000000000#64) :
    wordWriteBit (flag w 0) = w := by
  rw [wordWriteBit, ofBool_flag, const_eq_field h 56 0x10#8 (by decide) (by decide),
    const_eq_field h 1 0#55 (by decide) (by decide)]
  repeat rw [field_join w (by decide)]
  exact field_whole w

theorem wordWriteByte_of_match {w : CommandWord} (h : w &&& 0xFFFFFFFFFFFFFF00#64 = 0x1100000000000000#64) :
    wordWriteByte (field w 0 8) = w := by
  rw [wordWriteByte, const_eq_field h 56 0x11#8 (by decide) (by decide),
    const_eq_field h 8 0#48 (by decide) (by decide)]
  repeat rw [field_join w (by decide)]
  exact field_whole w

theorem wordWriteGap_of_match {w : CommandWord} (h : w &&& 0xFFFFFFFF00000000#64 = 0x1200000000000000#64) :
    wordWriteGap (field w 0 32) = w := by
  rw [wordWriteGap, const_eq_field h 56 0x12#8 (by decide) (by decide),
    const_eq_field h 32 0#24 (by decide) (by decide)]
  repeat rw [field_join w (by decide)]
  exact field_whole w

theorem wordWriteBlock_of_match {w : CommandWord} (h : w &&& 0xFF00F0FF00000000#64 = 0x2000000000000000#64) :
    wordWriteBlock (field w 48 8) (flag w 43) (field w 40 3) (field w 0 32) = w := by
  rw [wordWriteBlock, ofBool_flag, const_eq_field h 56 0x20#8 (by decide) (by decide),
    const_eq_field h 44 0#4 (by decide) (by decide), const_eq_field h 32 0#8 (by decide) (by decide)]
  repeat rw [field_join w (by decide)]
  exact field_whole w

theorem wordWriteFormat_of_match {w : CommandWord} (h : w &&& 0xFF000F0000000000#64 = 0x3000000000000000#64) :
    wordWriteFormat (field w 48 8) (field w 44 4) (field w 0 40) = w := by
  rw [wordWriteFormat, const_eq_field h 56 0x30#8 (by decide) (by decide),
    const_eq_field h 40 0#4 (by decide) (by decide)]
  repeat rw [field_join w (by decide)]
  exact field_whole w

/-- The instruction of a WRITE_FORMAT word is well formed, and has the WRITE_FORMAT word of the same fields. -/
theorem buildFormat_spec (w : CommandWord) :
    encode (buildFormat w) = .command (wordWriteFormat (field w 48 8) (field w 44 4) (field w 0 40))
    ∧ (buildFormat w).wf = true := by
  by_cases hem : isEmWord (field w 48 8) (field w 44 4) = true
  · obtain ⟨hfmt, hidlen⟩ : field w 48 8 = 0#8 ∧ field w 44 4 = 5#4 := by simpa [isEmWord] using hem
    have built : buildFormat w = .writeEm (field w 0 40) := if_pos hem
    rw [built, hfmt, hidlen]
    exact ⟨rfl, rfl⟩
  · by_cases hhid : isHidWord (field w 48 8) (field w 44 4) (field w 0 40) = true
    · obtain ⟨⟨hfmt, hidlen⟩, habove⟩ :
          (field w 48 8 = 1#8 ∧ field w 44 4 = 3#4) ∧ (field w 0 40).extractLsb' 24 16 = 0#16 := by
        simpa [isHidWord] using hhid
      have built : buildFormat w = .writeHid (field w 0 24) := (if_neg hem).trans (if_pos hhid)
      have operand : 0#16 ++ field w 0 24 = field w 0 40 := by
        have above : field w 24 16 = 0#16 := by
          rw [← habove]
          ext k hk
          simp [field]
        rw [← above, field_join w (by decide)]
      rw [built, hfmt, hidlen, ← operand]
      exact ⟨rfl, rfl⟩
    · have built : buildFormat w = .writeFormat (field w 48 8) (field w 44 4) (field w 0 40) :=
        (if_neg hem).trans (if_neg hhid)
      rw [built]
      exact ⟨rfl, by simp [Instr.wf, hem, hhid]⟩

/-- The opcodes that are assigned (30 R71). -/
theorem opcode_of_instr {w : CommandWord} {i : Instr} (h : decodeCommand w = .instr i) :
    opcode w ∈ [0x01#8, 0x02#8, 0x10#8, 0x11#8, 0x12#8, 0x13#8, 0x20#8, 0x30#8] := by
  by_contra hn
  rw [decodeCommand_unassigned hn] at h
  cases h

/-- A command word that decodes is the encoding of its instruction. -/
theorem encode_of_decodeCommand {w : CommandWord} {i : Instr} (h : decodeCommand w = .instr i) :
    encode i = .command w ∧ i.wf = true := by
  have assigned := opcode_of_instr h
  simp only [List.mem_cons, List.not_mem_nil, or_false] at assigned
  rcases assigned with hop | hop | hop | hop | hop | hop | hop | hop
  · obtain ⟨hw, rfl⟩ := rowWord_eq_instr.1 ((decodeCommand_carrierStart hop).symm.trans h)
    exact ⟨congrArg PortWord.command (eq_of_full_mask hw), rfl⟩
  · obtain ⟨hw, rfl⟩ := rowWord_eq_instr.1 ((decodeCommand_carrierStop hop).symm.trans h)
    exact ⟨congrArg PortWord.command (eq_of_full_mask hw), rfl⟩
  · obtain ⟨hw, rfl⟩ := rowWord_eq_instr.1 ((decodeCommand_writeBit hop).symm.trans h)
    exact ⟨congrArg PortWord.command (wordWriteBit_of_match hw), rfl⟩
  · obtain ⟨hw, rfl⟩ := rowWord_eq_instr.1 ((decodeCommand_writeByte hop).symm.trans h)
    exact ⟨congrArg PortWord.command (wordWriteByte_of_match hw), rfl⟩
  · obtain ⟨hw, rfl⟩ := rowWord_eq_instr.1 ((decodeCommand_writeGap hop).symm.trans h)
    exact ⟨congrArg PortWord.command (wordWriteGap_of_match hw), rfl⟩
  · obtain ⟨hw, rfl⟩ := rowWord_eq_instr.1 ((decodeCommand_writeReset hop).symm.trans h)
    exact ⟨congrArg PortWord.command (eq_of_full_mask hw), rfl⟩
  · obtain ⟨hw, rfl⟩ := rowWord_eq_instr.1 ((decodeCommand_writeBlock hop).symm.trans h)
    exact ⟨congrArg PortWord.command (wordWriteBlock_of_match hw), rfl⟩
  · obtain ⟨hw, rfl⟩ := rowWord_eq_instr.1 ((decodeCommand_writeFormat hop).symm.trans h)
    obtain ⟨hencode, hwf⟩ := buildFormat_spec w
    exact ⟨hencode.trans (congrArg PortWord.command (wordWriteFormat_of_match hw)), hwf⟩

/-- A write frame is the concatenation of its fields (30 R84). -/
theorem writeFrame_of_fields (f : BitVec 38) :
    writeFrame (field f 36 2) (flag f 35) (field f 3 32) (field f 0 3) = f := by
  rw [writeFrame, ofBool_flag]
  repeat rw [field_join f (by decide)]
  exact field_whole f

/-- A frame that decodes is the encoding of its instruction. -/
theorem encode_of_decodeFrame {f : Frame} {i : Instr} (h : decodeFrame f = .instr i) :
    encode i = .frame f ∧ i.wf = true := by
  cases f with
  | write f =>
    have whole := writeFrame_of_fields f
    simp only [decodeFrame] at h
    split at h
    case isTrue page0 =>
      cases h
      rw [page0] at whole
      exact ⟨congrArg (PortWord.frame ∘ Frame.write) whole, rfl⟩
    case isFalse =>
      split at h
      case isTrue page1 =>
        cases h
        rw [page1] at whole
        exact ⟨congrArg (PortWord.frame ∘ Frame.write) whole, rfl⟩
      case isFalse => cases h
  | reset f =>
    simp only [decodeFrame] at h
    split at h
    case isTrue hf =>
      cases h
      rw [hf]
      exact ⟨rfl, rfl⟩
    case isFalse => cases h

/-- Settles O57: a command word by its opcode's row, a frame by its opcode bits. -/
theorem decodedWordReencodes : Obligations.DecodedWordReencodes := by
  intro p i h
  cases p with
  | command w => exact encode_of_decodeCommand ((Machine.decode_command_iff w i).1 h)
  | frame f => exact encode_of_decodeFrame h

/-- The word an instruction latches is its encoding, where it has a command word. -/
theorem commandWord_of_encode {i : Instr} {w : CommandWord} (h : encode i = .command w) : commandWord i = w := by
  cases i with
  | airWritePage0 _ _ _ | airWritePage1 _ _ _ | airReset => cases h
  | carrierStart | carrierStop | writeBit _ | writeByte _ | writeGap _ | writeReset | writeBlock _ _ _ _
  | writeFormat _ _ _ | writeEm _ | writeHid _ => exact PortWord.command.inj h

/-- Settles O58: each word is evaluated by the decoder. -/
theorem workedEncodingsDecode : Obligations.WorkedEncodingsDecode := by
  refine ⟨?_, ?_, ?_, ?_, ?_, ?_, ?_, ?_, ?_, ?_, ?_⟩ <;> decide

end Sys2Proof
end

section
/-! The configuration (10 R22, R26): the two built-in descriptors come first, and every further entry stands under
its own tag from 2 to 255. -/

namespace Sys2Proof

/-- The further entries of the table, as `Config.formats` lists them. -/
def extraEntry (t : BitVec 8) : Option FormatDescriptor := (Config.extraFormat t).map fun x => x.descriptor t

theorem formats_eq : Config.formats = Config.em :: Config.hid :: Config.extraTags.filterMap extraEntry := rfl

/-- A further entry has the tag it stands under, and is within its bounds. -/
theorem extraEntry_spec {t : BitVec 8} {F : FormatDescriptor} (h : extraEntry t = some F) :
    F.tag = t ∧ F.wf = true := by
  obtain ⟨x, -, rfl⟩ := Option.map_eq_some_iff.1 h
  refine ⟨rfl, ?_⟩
  simp [FormatDescriptor.wf, ExtraFormat.descriptor]

theorem mem_extraTags {t : BitVec 8} (h : t ∈ Config.extraTags) : t ≠ 0#8 ∧ t ≠ 1#8 := by
  simp only [Config.extraTags, List.mem_map, List.mem_range] at h
  obtain ⟨k, hk, rfl⟩ := h
  constructor <;> exact fun he => by
    have := congrArg BitVec.toNat he
    simp only [BitVec.toNat_ofNat] at this
    omega

theorem extraTags_nodup : Config.extraTags.Nodup := by
  refine List.Nodup.map_on (fun i hi j hj he => ?_) List.nodup_range
  rw [List.mem_range] at hi hj
  have := congrArg BitVec.toNat he
  simp only [BitVec.toNat_ofNat] at this
  omega

/-- The further entries' tags are among the further tags, in their order. -/
theorem extraEntries_tags_sublist (ts : List (BitVec 8)) :
    ((ts.filterMap extraEntry).map FormatDescriptor.tag).Sublist ts := by
  induction ts with
  | nil => exact .slnil
  | cons t ts ih =>
    cases h : extraEntry t with
    | none => rw [List.filterMap_cons_none h]; exact ih.cons t
    | some F =>
      rw [List.filterMap_cons_some h, List.map_cons, (extraEntry_spec h).1]
      exact ih.cons_cons t

theorem formats_tags_nodup : (Config.formats.map FormatDescriptor.tag).Nodup := by
  have sub := extraEntries_tags_sublist Config.extraTags
  rw [formats_eq, List.map_cons, List.map_cons, List.nodup_cons, List.nodup_cons]
  refine ⟨fun hem => ?_, fun hhid => ?_, extraTags_nodup.sublist sub⟩
  · rcases List.mem_cons.1 hem with he | he
    · exact absurd he (by decide)
    · exact (mem_extraTags (sub.subset he)).1 rfl
  · exact (mem_extraTags (sub.subset hhid)).2 rfl

theorem formats_wf {F : FormatDescriptor} (h : F ∈ Config.formats) : F.wf = true := by
  rw [formats_eq, List.mem_cons, List.mem_cons, List.mem_filterMap] at h
  rcases h with rfl | rfl | ⟨t, -, ht⟩
  · decide
  · decide
  · exact (extraEntry_spec ht).2

/-- The lookup answers an entry of the table, under its tag. -/
theorem lookup_spec {fmt : BitVec 8} {F : FormatDescriptor} (h : Config.lookup fmt = some F) :
    F ∈ Config.formats ∧ F.tag = fmt :=
  ⟨List.mem_of_find?_eq_some h, by simpa using List.find?_some h⟩

theorem timing_wf : Config.timing.wf = true := by
  simp [TimingProfile.wf, Config.timing]

/-- Settles O59: the timing excesses give R22, the types of a further entry and the tags' order give R26. -/
theorem configurationIsWellFormed : Obligations.ConfigurationIsWellFormed := by
  refine ⟨timing_wf, ?table, fun fmt F h => lookup_spec h⟩
  case table =>
    rw [formatsWf, Bool.and_eq_true, Bool.and_eq_true, Bool.and_eq_true]
    refine ⟨⟨⟨?em, ?hid⟩, decide_eq_true formats_tags_nodup⟩, List.all_eq_true.2 fun F hF => formats_wf hF⟩
    case em => exact List.contains_iff_mem.2 (List.mem_map.2 ⟨Config.em, by simp [formats_eq], rfl⟩)
    case hid => exact List.contains_iff_mem.2 (List.mem_map.2 ⟨Config.hid, by simp [formats_eq], rfl⟩)

end Sys2Proof
end

section
/-! What an acceptance loads (60 R236): the latched word, a list that fits the block, and a payload within its
bound. -/

namespace Sys2Proof.Machine

theorem needCarrier_accepts {c : Carrier} {e e' : Expansion} {s : State} (h : needCarrier c e s = .accepts e') :
    s.carrier = c ∧ e' = e := by
  by_cases hc : s.carrier = c
  · rw [needCarrier_of_eq hc] at h
    exact ⟨hc, (Acceptance.accepts.inj h).symm⟩
  · rw [needCarrier_of_ne hc] at h
    cases h

/-- A WRITE_FORMAT that is accepted loads the session of its descriptor (43 R192). -/
theorem formatAcceptance_accepts {fmt : BitVec 8} {idlen : BitVec 4} {id : BitVec 40} {s : State} {e : Expansion}
    (h : formatAcceptance fmt idlen id s = .accepts e) :
    ∃ F w, Config.lookup fmt = some F ∧ s.carrier = .stopped ∧ w.length = F.nwords
      ∧ e = ⟨fmtx Config.timing F w, wordWriteFormat fmt idlen id, some w⟩ := by
  unfold formatAcceptance at h
  split at h
  · cases h
  · rename_i F hF
    rcases descriptorAcceptance_cases F (wordWriteFormat fmt idlen id) idlen id s with
      ⟨c, hfails, -⟩ | ⟨-, -, hcarrier, hwords, haccepts⟩
    · rw [hfails] at h
      cases h
    · rw [haccepts] at h
      exact ⟨F, _, hF, hcarrier, hwords, (Acceptance.accepts.inj h).symm⟩

/-- An accepted command latches its command word. -/
theorem acceptanceOf_latch {i : Instr} {s : State} {e : Expansion} (h : acceptanceOf i s = .accepts e) :
    e.latch = commandWord i := by
  cases i with
  | carrierStop => cases h; rfl
  | writeFormat fmt idlen id =>
    obtain ⟨F, w, -, -, -, rfl⟩ := formatAcceptance_accepts (fmt := fmt) (idlen := idlen) (id := id) h
    rfl
  | writeEm id =>
    obtain ⟨F, w, -, -, -, rfl⟩ := formatAcceptance_accepts (fmt := 0#8) (idlen := 5#4) (id := id) h
    rfl
  | writeHid id =>
    obtain ⟨F, w, -, -, -, rfl⟩ := formatAcceptance_accepts (fmt := 1#8) (idlen := 3#4) (id := 0#16 ++ id) h
    rfl
  | carrierStart | writeBit _ | writeByte _ | writeGap _ | writeReset | writeBlock _ _ _ _
  | airWritePage0 _ _ _ | airWritePage1 _ _ _ | airReset =>
    obtain ⟨-, rfl⟩ := needCarrier_accepts h
    rfl

/-- A loaded list fits an unhalted block with no session, and the payload it brings is within 7 words. -/
def fitsWhenLoaded (e : Expansion) (s : State) : Prop :=
  opsFit false s.carrier false e.ops = true ∧ ∀ w, e.payload = some w → w.length ≤ 7

theorem fitsWhenLoaded_format {fmt : BitVec 8} {idlen : BitVec 4} {id : BitVec 40} {s : State} {e : Expansion}
    (h : formatAcceptance fmt idlen id s = .accepts e) : fitsWhenLoaded e s := by
  obtain ⟨F, w, hlookup, hcarrier, hlength, rfl⟩ := formatAcceptance_accepts h
  refine ⟨by rw [hcarrier]; exact opsFit_fmtx Config.timing F w, fun w' hw' => ?_⟩
  have hF := formats_wf (lookup_spec hlookup).1
  simp only [FormatDescriptor.wf, Bool.and_eq_true, decide_eq_true_eq] at hF
  cases hw'
  omega

/-- A transmitter's list, which leaves a running carrier running, fits it. -/
theorem fitsWhenLoaded_running {ops : List MicroOp} {latch : CommandWord} {s : State} {e : Expansion}
    (h : needCarrier .running ⟨ops, latch, none⟩ s = .accepts e)
    (hops : opsFit false .running false (ops ++ []) = opsFit false .running false []) : fitsWhenLoaded e s := by
  obtain ⟨hcarrier, rfl⟩ := needCarrier_accepts h
  refine ⟨?_, fun w hw => by cases hw⟩
  rw [hcarrier, ← List.append_nil ops, hops]
  rfl

theorem acceptanceOf_fits {i : Instr} {s : State} {e : Expansion} (hc : s.carrier ≠ .paused)
    (h : acceptanceOf i s = .accepts e) : fitsWhenLoaded e s := by
  cases i with
  | carrierStart =>
    obtain ⟨hstopped, rfl⟩ := needCarrier_accepts h
    exact ⟨by rw [hstopped]; rfl, fun w hw => by cases hw⟩
  | carrierStop =>
    cases h
    exact ⟨by simp [opsFit, hc], fun w hw => by cases hw⟩
  | writeBit v => exact fitsWhenLoaded_running h (opsFit_bitx _ _ _ _)
  | writeByte b => exact fitsWhenLoaded_running h (opsFit_cellsx _ _ _ _)
  | writeGap d => exact fitsWhenLoaded_running h (opsFit_gapx _ _ _)
  | writeReset | airReset => exact fitsWhenLoaded_running h (opsFit_rstx _ _ _)
  | writeBlock _ _ _ _ | airWritePage0 _ _ _ | airWritePage1 _ _ _ =>
    exact fitsWhenLoaded_running h (opsFit_blkx _ _ _ _ _ _ _)
  | writeFormat fmt idlen id => exact fitsWhenLoaded_format (fmt := fmt) (idlen := idlen) (id := id) h
  | writeEm id => exact fitsWhenLoaded_format (fmt := 0#8) (idlen := 5#4) (id := id) h
  | writeHid id => exact fitsWhenLoaded_format (fmt := 1#8) (idlen := 3#4) (id := 0#16 ++ id) h

end Sys2Proof.Machine
end

section
/-! The state invariant (10 R41): what it says of an idle block, and that an issue and a micro-operation keep it. -/

namespace Sys2Proof.Machine

/-- Settles O54: the block is idle, unhalted and stopped, with an empty payload. -/
theorem resetHasInvariant : Obligations.ResetHasInvariant :=
  ⟨by decide, by decide, by decide, by decide⟩

/-- An idle block is in no session, and its carrier is stopped after a fault, else not paused. -/
theorem StateInvariant.of_idle {s : State} (hi : StateInvariant s) (hp : s.pending = []) :
    s.inSession = false ∧ (s.fault ≠ .none → s.carrier = .stopped) ∧ (s.fault = .none → s.carrier ≠ .paused) := by
  obtain ⟨hfit, -⟩ := hi
  rw [hp, opsFit_idle, Bool.and_eq_true, Bool.not_eq_true'] at hfit
  obtain ⟨hsession, hcarrier⟩ := hfit
  refine ⟨hsession, fun hf => ?_, fun hf => ?_⟩
  · simpa [(halted_eq_true_iff s).2 hf] using hcarrier
  · simpa [(halted_eq_false_iff s).2 hf] using hcarrier

theorem raiseFault_halted {c : FaultCode} (hc : c ≠ .none) (s : State) : (raiseFault c s).halted = true := by
  rw [halted_eq_true_iff, raiseFault_fault]
  by_cases hf : s.fault = .none
  · rw [hf, latchFault_none]
    exact hc
  · rw [latchFault_of_ne hf]
    exact hf

/-- Taking a fault keeps the invariant: only the teardown is pending. -/
theorem raiseFault_keeps_invariant {c : FaultCode} (hc : c ≠ .none) {s : State}
    (hmask : s.inSession = true → s.gmask = true) (hon : s.inSession = true → s.carrier ≠ .stopped)
    (hpay : s.payload.length ≤ 7) : StateInvariant (raiseFault c s) :=
  ⟨by rw [raiseFault_halted hc]; exact opsFit_teardown s, hmask, hon, hpay⟩

theorem issuesWith_fails {w : CommandWord} {s : State} {c : FaultCode} (h : issuesWith w s (.fails c)) :
    c ≠ .none := by
  rcases h with ⟨i, -, hi⟩ | ⟨c', hc, he⟩
  · exact acceptanceOf_fails hi.symm
  · cases he
    exact hc

theorem issuesWith_accepts {w : CommandWord} {s : State} {e : Expansion} (h : issuesWith w s (.accepts e)) :
    ∃ i, decodeCommand w = .instr i ∧ acceptanceOf i s = .accepts e := by
  rcases h with ⟨i, hw, hi⟩ | ⟨c, -, he⟩
  · exact ⟨i, hw, hi.symm⟩
  · cases he

/-- An issue keeps the invariant: a fault leaves its teardown pending, an acceptance a list that fits. -/
theorem issue_keeps_invariant {w : CommandWord} {s : State} {acc : Acceptance} (hacc : issuesWith w s acc)
    (hi : StateInvariant s) : StateInvariant (issue acc s) := by
  obtain ⟨hfit, hmask, hon, hpay⟩ := hi
  rcases issue_cases acc s with ⟨-, h⟩ | ⟨-, -, h⟩ | ⟨-, c, rfl, h⟩ | ⟨hr, e, rfl, h⟩
  · rw [h]
    exact ⟨hfit, hmask, hon, hpay⟩
  · rw [h]
    exact raiseFault_keeps_invariant (by decide) hmask hon hpay
  · rw [h]
    exact raiseFault_keeps_invariant (issuesWith_fails hacc) hmask hon hpay
  · obtain ⟨i, -, haccepts⟩ := issuesWith_accepts hacc
    obtain ⟨hsession, -, hcarrier⟩ := StateInvariant.of_idle ⟨hfit, hmask, hon, hpay⟩ hr.2
    obtain ⟨hops, hwords⟩ := acceptanceOf_fits (hcarrier hr.1) haccepts
    rw [h]
    refine ⟨?fit, hmask, hon, ?payload⟩
    case fit =>
      rw [(halted_eq_false_iff (s.load e)).2 hr.1, State.load_inSession, hsession]
      exact hops
    case payload =>
      rw [State.load_payload]
      cases hp : e.payload with
      | none => exact hpay
      | some ws => exact hwords ws hp

/-- A micro-operation at the head of a list that fits keeps the invariant: it leaves the rest of the list fitting,
or it raises INVALID_PAGE, whose teardown fits. -/
theorem perform_keeps_invariant {op : MicroOp} {s : State}
    (hfit : opsFit s.halted s.carrier s.inSession (op :: s.pending) = true)
    (hmask : s.inSession = true → s.gmask = true) (hon : s.inSession = true → s.carrier ≠ .stopped)
    (hpay : s.payload.length ≤ 7) : StateInvariant (perform op s) := by
  have running_on : s.inSession = true → Carrier.running ≠ .stopped := fun _ => by decide
  cases op <;> simp only [opsFit, Bool.and_eq_true, Bool.or_eq_true, Bool.not_eq_true', beq_iff_eq, bne_iff_ne] at hfit
  case start => exact ⟨hfit.2, hmask, running_on, hpay⟩
  case stop =>
    obtain ⟨⟨-, outside⟩, rest⟩ := hfit
    exact ⟨rest, hmask, fun hs => absurd (outside.symm.trans hs) (by decide), hpay⟩
  case pause =>
    obtain ⟨⟨-, hc⟩, rest⟩ := hfit
    rw [perform, if_pos hc]
    exact ⟨rest, hmask, fun _ => Carrier.noConfusion, hpay⟩
  case resume =>
    obtain ⟨⟨-, hc⟩, rest⟩ := hfit
    rw [perform, if_pos hc]
    exact ⟨rest, hmask, running_on, hpay⟩
  case pinsReset | delay | setPhase => exact ⟨hfit.2, hmask, hon, hpay⟩
  case maskEnter =>
    obtain ⟨⟨⟨-, hc⟩, -⟩, rest⟩ := hfit
    exact ⟨rest, fun _ => rfl, fun _ => by rw [perform, State.emit_carrier, hc]; decide, hpay⟩
  case maskExit => exact ⟨hfit.2, fun hs => Bool.noConfusion hs, fun hs => Bool.noConfusion hs, hpay⟩
  case checkPage p =>
    by_cases hp : p = 0#8 ∨ p = 1#8
    · rw [perform_checkPage_of_valid hp]
      exact ⟨hfit.2, hmask, hon, hpay⟩
    · rw [perform_checkPage_of_invalid hp]
      exact raiseFault_keeps_invariant (by decide) hmask hon hpay

/-- The clock, the draws and the payload's end (40 R114, 10 R36) keep the invariant. -/
theorem settle_keeps_invariant (op : MicroOp) (b : State) {s : State} (hi : StateInvariant s) :
    StateInvariant (settle op b s) := by
  obtain ⟨hfit, hmask, hon, hpay⟩ := hi
  refine ⟨hfit, hmask, hon, ?_⟩
  rw [settle_payload]
  split
  · exact List.length_take_le _ _
  · exact hpay

/-- The block's step keeps the invariant. -/
theorem blockStep_keeps_invariant {s : State} (hi : StateInvariant s) : StateInvariant (blockStep s) := by
  cases hp : s.pending with
  | nil => rwa [blockStep, hp]
  | cons op rest =>
    obtain ⟨hfit, hmask, hon, hpay⟩ := hi
    rw [blockStep_cons hp]
    rw [hp] at hfit
    exact settle_keeps_invariant op s (perform_keeps_invariant (s := { s with pending := rest }) hfit hmask hon hpay)

/-- Settles O53, by what a step can be: the block's own step, an issue, a mask write on an idle block, or a step that
touches none of the invariant's fields; the reset has the invariant. -/
theorem stepKeepsInvariant : Obligations.StepKeepsInvariant := by
  intro s t hi h
  obtain ⟨hfit, hmask, hon, hpay⟩ := hi
  cases step_cases h with
  | reset ts _ ht => rw [ht]; exact resetHasInvariant
  | block ts _ ht => rw [ht]; exact blockStep_keeps_invariant ⟨hfit, hmask, hon, hpay⟩
  | issued ts hq lq a w acc _ hacc ht => rw [ht]; exact issue_keeps_invariant hacc ⟨hfit, hmask, hon, hpay⟩
  | maskWritten ts q b _ hp ht =>
    obtain ⟨outside, -⟩ := StateInvariant.of_idle ⟨hfit, hmask, hon, hpay⟩ hp
    rw [ht]
    exact ⟨hfit, fun hs => absurd (outside.symm.trans hs) (by decide), hon, hpay⟩
  | statusRead ts hq lq ht => rw [ht]; exact ⟨hfit, hmask, hon, hpay⟩
  | passed ts ht => rw [ht]; exact ⟨hfit, hmask, hon, hpay⟩

/-! What the invariant says. -/

/-- Unhalted, only delays stand between a Pause and its Resume. -/
theorem opsFit_paused {session : Bool} {ops : List MicroOp} (h : opsFit false .paused session ops = true) :
    ∃ (ds : List Nat) (rest : List MicroOp), ops = ds.map MicroOp.delay ++ .resume :: rest := by
  induction ops with
  | nil => simp [opsFit] at h
  | cons op ops ih =>
    cases op with
    | resume => exact ⟨[], ops, rfl⟩
    | delay n =>
      obtain ⟨ds, rest, rfl⟩ := ih (by simpa [opsFit] using h)
      exact ⟨n :: ds, rest, rfl⟩
    | start | stop | pause | pinsReset | maskEnter | maskExit | checkPage _ | setPhase _ _ => simp [opsFit] at h

/-- Settles O55: each clause is what `opsFit` demands at the head of the list; the first one needs the whole gap. -/
theorem invariantGivesStateInvariants : Obligations.InvariantGivesStateInvariants := by
  intro s hi
  have ⟨hfit, hmask, hon, _⟩ := hi
  refine ⟨fun hc hf => ?gap, fun rest hp => ?pause, fun rest hp => ?resume, fun rest hp => ?start,
    fun hs => ⟨hmask hs, hon hs, fun hp => ?session⟩, fun hp hf => (hi.of_idle hp).2.1 hf⟩
  case gap =>
    rw [(halted_eq_false_iff s).2 hf, hc] at hfit
    exact opsFit_paused hfit
  case session => exact absurd ((hi.of_idle hp).1.symm.trans hs) (by decide)
  all_goals
    rw [hp] at hfit
    simp only [opsFit, Bool.and_eq_true, beq_iff_eq] at hfit
  case pause => exact hfit.1.2
  case resume => exact hfit.1.2
  case start => exact hfit.1.1.2

end Sys2Proof.Machine
end

section
/-! The agents' steps (60 R236 to R249): who issues, what the issued word does, and when an agent has no step. -/

namespace Sys2Proof.Machine

/-! The issuer noted (log 12). -/

theorem issuerAfter_host (s : State) :
    issuerAfter .host s = if s.fault = .none then .host else s.issuer := by
  by_cases hf : s.fault = .none <;> simp [issuerAfter, State.halted, hf]

theorem issuerAfter_handler (s : State) :
    issuerAfter .handler s = if s.fault = .none ∧ s.pending = [] then .handler else s.issuer := by
  by_cases hf : s.fault = .none
  · by_cases hp : s.pending = [] <;> simp [issuerAfter, State.halted, State.busy, hf, hp]
  · simp [issuerAfter, State.halted, hf]

/-! What an issued word does. -/

theorem runWord_of_decode {w : CommandWord} {i : Instr} (h : decode (.command w) = .instr i) (s : State) :
    runWord w s = exec i s :=
  runWord_of_instr ((decode_command_iff w i).1 h) s

/-- The command that emits a frame has the frame's meaning (log 3). -/
theorem runWord_commandWord {i : Instr} (hwf : i.wf = true) (s : State) : runWord (commandWord i) s = exec i s := by
  have decoded := decodeEncodeAgree i hwf
  cases i with
  | airWritePage0 lock data addr => exact runWord_of_instr (decodeCommand_wordWriteBlock 0#8 lock addr data) s
  | airWritePage1 lock data addr => exact runWord_of_instr (decodeCommand_wordWriteBlock 1#8 lock addr data) s
  | airReset => exact runWord_of_instr (w := wordWriteReset) (i := .writeReset) (by decide) s
  | carrierStart | carrierStop | writeBit _ | writeByte _ | writeGap _ | writeReset | writeBlock _ _ _ _
  | writeFormat _ _ _ | writeEm _ | writeHid _ => exact runWord_of_decode decoded s

theorem issuedFor_frame {f : Frame} {i : Instr} (h : decode (.frame f) = .instr i) :
    issuedFor (.frame f) = some (commandWord i) := by
  have hf : decodeFrame f = .instr i := h
  simp only [issuedFor, hf]

/-- The word issued for a port word that decodes runs the decoded instruction. -/
theorem issuedFor_runs {p : PortWord} {i : Instr} (h : decode p = .instr i) :
    ∃ c, issuedFor p = some c ∧ ∀ s, runWord c s = exec i s := by
  cases p with
  | command w => exact ⟨w, rfl, runWord_of_decode h⟩
  | frame f => exact ⟨commandWord i, issuedFor_frame h, runWord_commandWord (encode_of_decodeFrame h).2⟩

theorem runWord_of_halted (w : CommandWord) {s : State} (hf : s.fault ≠ .none) : runWord w s = .next s := by
  obtain ⟨acc, -, hr⟩ := runWord_issue w s
  rw [hr, issue_of_halted acc hf]

theorem runWord_of_busy (w : CommandWord) {s : State} (hf : s.fault = .none) (hp : s.pending ≠ []) :
    runWord w s = .next (raiseFault .concurrentCommand s) := by
  obtain ⟨acc, -, hr⟩ := runWord_issue w s
  rw [hr, issue_of_busy acc hf hp]

theorem runWord_rejected {w : CommandWord} {r : CommandReject} (h : decodeCommand w = .rejected r) {s : State}
    (hr : s.ready) : runWord w s = .next (raiseFault (rejectCode r) s) := by
  rw [runWord_of_rejected h, issue_fails _ hr]

/-- A word issued to a ready block is latched if it is accepted; else only its fault's event is emitted. -/
theorem runWord_latch {w : CommandWord} {s t : State} (hr : s.ready) (h : runWord w s = .next t) :
    (t.fault = .none → t.cmdLatch = w ∧ t.trace = s.trace)
    ∧ (t.fault ≠ .none → t.cmdLatch = s.cmdLatch ∧ t.trace = s.trace ++ [.fault t.fault]) := by
  obtain ⟨acc, hacc, rfl⟩ := runWord_next h
  cases acc with
  | fails c =>
    have latched : (raiseFault c s).fault = c := by rw [raiseFault_fault, hr.1, latchFault_none]
    rw [issue_fails c hr]
    refine ⟨fun hn => absurd (latched.symm.trans hn) (issuesWith_fails hacc), fun _ => ⟨rfl, ?_⟩⟩
    rw [latched, raiseFault_trace]
  | accepts e =>
    obtain ⟨i, hw, haccepts⟩ := issuesWith_accepts hacc
    rw [issue_accepts e hr]
    refine ⟨fun _ => ⟨?_, rfl⟩, fun hn => absurd hr.1 hn⟩
    rw [State.load_cmdLatch, acceptanceOf_latch haccepts, commandWord_of_encode (encode_of_decodeCommand hw).1]

/-! The issue steps, with the issuer written out. -/

theorem step_hostIssue_eq {s : State} {w : CommandWord} {q : List HostAction} {ts : List Turn}
    (h : s.hostMoves (.issue w) q ts) (hs : s.inSession = false) (hb : s.issuer ≠ .host ∨ s.pending = []) :
    step s = runWord w { s with
      turns := ts, hostQueue := q, issuer := if s.fault = .none then .host else s.issuer } := by
  rw [step_hostIssue h ((hostMayIssue_iff s).2 ⟨hs, hb⟩), issuerAfter_host]

theorem step_handlerIssue_eq {s : State} {w : CommandWord} {q : List HandlerAction} {ts : List Turn}
    (h : s.handlerMoves (.issue w) q ts) (hg : s.gmask = false) :
    step s = runWord w { s with
      turns := ts, handlerQueue := q,
      issuer := if s.fault = .none ∧ s.pending = [] then .handler else s.issuer } := by
  rw [step_handlerIssue h hg, issuerAfter_handler]

/-- On a ready block the host thread becomes the issuer. -/
theorem step_hostIssue_ready {s : State} {w : CommandWord} {q : List HostAction} {ts : List Turn}
    (h : s.hostMoves (.issue w) q ts) (hs : s.inSession = false) (hr : s.ready) :
    step s = runWord w { s with turns := ts, hostQueue := q, issuer := .host } := by
  rw [step_hostIssue_eq h hs (.inr hr.2), if_pos hr.1]

/-- On a ready block the handlers become the issuer. -/
theorem step_handlerIssue_ready {s : State} {w : CommandWord} {q : List HandlerAction} {ts : List Turn}
    (h : s.handlerMoves (.issue w) q ts) (hg : s.gmask = false) (hr : s.ready) :
    step s = runWord w { s with turns := ts, handlerQueue := q, issuer := .handler } := by
  rw [step_handlerIssue_eq h hg, if_pos ⟨hr.1, hr.2⟩]

/-- Settles O5: the issued word decodes, so it runs its instruction. -/
theorem stepRunsHostCommand : Obligations.StepRunsHostCommand := by
  intro s ts q w i moves outside free decoded
  rw [step_hostIssue_eq moves outside free, runWord_of_decode decoded]

/-- Settles O6: the issued word decodes, so it runs its instruction. -/
theorem stepRunsHandlerCommand : Obligations.StepRunsHandlerCommand := by
  intro s ts q w i moves unmasked decoded
  rw [step_handlerIssue_eq moves unmasked, runWord_of_decode decoded]

/-- Settles O7: the word issued for a frame runs the frame's instruction. -/
theorem stepRunsAirFrame : Obligations.StepRunsAirFrame := by
  intro s ts q f w i decoded issued moves outside free
  obtain ⟨c, hc, runs⟩ := issuedFor_runs decoded
  obtain rfl : c = w := Option.some.inj (hc.symm.trans issued)
  rw [step_hostIssue_eq moves outside free, runs]

theorem decodeTableWord_eq_some {nbits w : Nat} {i : Instr} (h : decodeTableWord nbits w = some i) :
    ∃ p, tablePort nbits w = some p ∧ decode p = .instr i := by
  unfold decodeTableWord at h
  split at h
  · cases h
  · rename_i p hp
    split at h
    · rename_i j hj
      exact ⟨p, hp, by rw [hj, Option.some.inj h]⟩
    · cases h

/-- Settles O8: the placed word is at the head of the host thread's queue, with the host thread's turn. -/
theorem placedWordRunsNext : Obligations.PlacedWordRunsNext := by
  intro s nbits w i ready outside decoded
  obtain ⟨p, hp, hdecode⟩ := decodeTableWord_eq_some decoded
  obtain ⟨c, hc, runs⟩ := issuedFor_runs hdecode
  have placed : s.withFetchWord nbits w = placeWord c s := by
    simp only [State.withFetchWord, hp, Option.bind_some, hc]
  have moves : (placeWord c s).hostMoves (.issue c) s.hostQueue s.turns := ⟨.inl rfl, rfl⟩
  rw [placed, step_hostIssue_ready moves outside ready, runs]
  rfl

/-! Words that are no command, and issues to a halted or a busy block. -/

/-- A reserved bit that is set spoils the row's match. -/
theorem mismatch_of_reserved {w mask bits reserved : CommandWord} (hm : mask &&& reserved = reserved)
    (hb : bits &&& reserved = 0) (h : w &&& reserved ≠ 0) : w &&& mask ≠ bits := by
  intro hw
  apply h
  rw [← hm, ← BitVec.and_assoc, hw, hb]

/-- An assigned opcode with a reserved bit set is rejected (30 R81). -/
theorem decodeCommand_reserved {w : CommandWord} {opc : BitVec 8} {named : BitVec 64}
    (hrow : (opc, named) ∈ [(0x01#8, 0#64), (0x02#8, 0#64), (0x10#8, 0x1#64), (0x11#8, 0xFF#64),
      (0x12#8, 0xFFFFFFFF#64), (0x13#8, 0#64), (0x20#8, 0x00FF0F00FFFFFFFF#64), (0x30#8, 0x00FFF0FFFFFFFFFF#64)])
    (hop : opcode w = opc) (hw : w &&& 0x00FFFFFFFFFFFFFF#64 &&& ~~~named ≠ 0) :
    decodeCommand w = .rejected .reservedBits := by
  rw [BitVec.and_assoc] at hw
  simp only [List.mem_cons, List.not_mem_nil, or_false, Prod.mk.injEq] at hrow
  rcases hrow with ⟨rfl, rfl⟩ | ⟨rfl, rfl⟩ | ⟨rfl, rfl⟩ | ⟨rfl, rfl⟩ | ⟨rfl, rfl⟩ | ⟨rfl, rfl⟩ | ⟨rfl, rfl⟩
    | ⟨rfl, rfl⟩
  · rw [decodeCommand_carrierStart hop, rowWord_of_mismatch (mismatch_of_reserved (by decide) (by decide) hw)]
  · rw [decodeCommand_carrierStop hop, rowWord_of_mismatch (mismatch_of_reserved (by decide) (by decide) hw)]
  · rw [decodeCommand_writeBit hop, rowWord_of_mismatch (mismatch_of_reserved (by decide) (by decide) hw)]
  · rw [decodeCommand_writeByte hop, rowWord_of_mismatch (mismatch_of_reserved (by decide) (by decide) hw)]
  · rw [decodeCommand_writeGap hop, rowWord_of_mismatch (mismatch_of_reserved (by decide) (by decide) hw)]
  · rw [decodeCommand_writeReset hop, rowWord_of_mismatch (mismatch_of_reserved (by decide) (by decide) hw)]
  · rw [decodeCommand_writeBlock hop, rowWord_of_mismatch (mismatch_of_reserved (by decide) (by decide) hw)]
  · rw [decodeCommand_writeFormat hop, rowWord_of_mismatch (mismatch_of_reserved (by decide) (by decide) hw)]

/-- Settles O9: the word is rejected with the reason whose code is `c`, and a ready block raises that code. -/
theorem undecodableWordFaults : Obligations.UndecodableWordFaults := by
  intro s ts w ready c cause
  obtain ⟨r, hr, rfl⟩ : ∃ r, decodeCommand w = .rejected r ∧ c = rejectCode r := by
    rcases cause with ⟨unassigned, rfl⟩ | ⟨rfl, opc, named, row, hop, reserved⟩
    · exact ⟨.illegalOpcode, decodeCommand_unassigned unassigned, rfl⟩
    · exact ⟨.reservedBits, decodeCommand_reserved row hop reserved, rfl⟩
  constructor
  case left =>
    intro q moves outside
    rw [step_hostIssue_ready moves outside ready]
    exact runWord_rejected hr ready
  case right =>
    intro q moves unmasked
    rw [step_handlerIssue_ready moves unmasked ready]
    exact runWord_rejected hr ready

/-- Settles O10: a halted block ignores the issue, and the noted issuer stays. -/
theorem haltedBlockIgnoresEveryIssue : Obligations.HaltedBlockIgnoresEveryIssue := by
  refine ⟨fun i s halted => ?exec, fun s ts q w moves outside free halted => ?host,
    fun s ts q w moves unmasked halted => ?handler⟩
  case exec => rw [exec_eq_issue, issue_of_halted _ halted]
  case host =>
    rw [step_hostIssue_eq moves outside free, if_neg halted]
    exact runWord_of_halted w halted
  case handler =>
    rw [step_handlerIssue_eq moves unmasked, if_neg (fun h => halted h.1)]
    exact runWord_of_halted w halted

/-- Settles O11: a busy block raises CONCURRENT_COMMAND whatever is issued. -/
theorem concurrentIssueFaults : Obligations.ConcurrentIssueFaults := by
  refine ⟨fun i s hf busy => ⟨?exec, raiseFault_cmdLatch _ s⟩, fun s ts q w moves unmasked hf busy => ?handler,
    fun s ts q w moves outside free hf busy => ?host⟩
  case exec => rw [exec_eq_issue, issue_of_busy _ hf busy]
  case handler =>
    rw [step_handlerIssue_eq moves unmasked, if_neg (fun h => busy h.2)]
    exact runWord_of_busy w hf busy
  case host =>
    rw [step_hostIssue_eq moves outside (.inl free), if_pos hf]
    exact runWord_of_busy w hf busy

/-- Settles O14: whoever issues, the word is run on a block that is ready still. -/
theorem acceptedWordIsLatched : Obligations.AcceptedWordIsLatched := by
  intro s t ts w ready who stepped
  rcases who with ⟨⟨q, moves⟩, outside⟩ | ⟨⟨q, moves⟩, unmasked⟩
  · rw [step_hostIssue_ready moves outside ready] at stepped
    exact runWord_latch (s := { s with turns := ts, hostQueue := q, issuer := .host }) ready stepped
  · rw [step_handlerIssue_ready moves unmasked ready] at stepped
    exact runWord_latch (s := { s with turns := ts, handlerQueue := q, issuer := .handler }) ready stepped

/-! Status reads and mask writes. -/

/-- Settles O4: the reader's step is the status read. -/
theorem statusReadChangesNothing : Obligations.StatusReadChangesNothing := by
  constructor
  case left =>
    intro s ts q moves
    have enabled : hostEnabled s = true := by simp [hostEnabled, moves.2]
    rw [step_hostMoves moves enabled, hostStep_readStatus (s := { s with turns := ts }) moves.2]
    rfl
  case right =>
    intro s ts q moves unmasked
    rw [step_handlerMoves moves unmasked, handlerStep_readStatus (s := { s with turns := ts }) moves.2]
    rfl

/-- Settles O46: the host thread's step is the mask write, which is enabled while nothing is pending. -/
theorem hostWritesMaskWhenIdle : Obligations.HostWritesMaskWhenIdle := by
  intro s ts b q moves idle
  have enabled : hostEnabled s = true := by
    simp [hostEnabled, moves.2, hostMayWriteMask, (busy_eq_false_iff s).2 idle]
  rw [step_hostMoves moves enabled, hostStep_writeMask (s := { s with turns := ts }) moves.2]

/-! Agents without a step. -/

/-- The turn of an agent without a step passes (log 1). -/
theorem step_of_disabled {a : Agent} {s : State} {ts : List Turn} (ht : s.turns = .agent a :: ts)
    (h : agentEnabled a { s with turns := ts } = false) : step s = .next { s with turns := ts } := by
  rw [step_agent ht, agentStep_disabled h]

theorem hostMayIssue_eq_false {s : State} (h : s.inSession = true ∨ (s.issuer = .host ∧ s.pending ≠ [])) :
    hostMayIssue s = false := by
  rw [← Bool.not_eq_true, hostMayIssue_iff]
  rintro ⟨outside, free⟩
  rcases h with hs | ⟨hi, hp⟩
  · exact absurd (outside.symm.trans hs) (by decide)
  · exact free.elim (absurd hi) (absurd · hp)

/-- Settles O45: in each clause the agent's step is disabled. -/
theorem blockedAgentsDoNothing : Obligations.BlockedAgentsDoNothing := by
  intro s ts
  refine ⟨fun w q ht hq own busy => ?inFlight, fun w q ht hq session => ?inSession, fun b q ht hq busy => ?maskWrite,
    fun ht masked => ?handler⟩
  case inFlight =>
    refine step_of_disabled ht ?_
    simp only [agentEnabled, hostEnabled, hq]
    exact hostMayIssue_eq_false (.inr ⟨own, busy⟩)
  case inSession =>
    refine step_of_disabled ht ?_
    simp only [agentEnabled, hostEnabled, hq]
    exact hostMayIssue_eq_false (.inl session)
  case maskWrite =>
    refine step_of_disabled ht ?_
    simp only [agentEnabled, hostEnabled, hq, hostMayWriteMask]
    exact congrArg not ((busy_eq_true_iff s).2 busy)
  case handler => exact step_of_disabled ht (by simp [agentEnabled, handlerEnabled, handlerMayMove, masked])

/-- Settles O20: the block's step is disabled. -/
theorem idleBlockHasNoStep : Obligations.IdleBlockHasNoStep := by
  intro s ts ht idle
  exact step_of_disabled ht ((busy_eq_false_iff { s with turns := ts }).2 idle)

/-- Settles O2: no agent has anything to do at reset, so the default turn passes. -/
theorem resetIsQuiet : Obligations.ResetIsQuiet := by
  refine ⟨status_reset, ⟨rfl, rfl⟩, ?quiet⟩
  case quiet => rw [step_default rfl, agentStep_disabled rfl]

end Sys2Proof.Machine
end

section
/-! The micro-operations of the carrier, of a gap and of a delay (40 R102 to R107), and what each of them does beside
its rule (40 R114). -/

namespace Sys2Proof.Machine

/-- 40 R104. -/
theorem perform_pause (s : State) :
    perform .pause s = if s.carrier = .running then { s with carrier := .paused, trace := s.trace ++ [.pause] }
      else raiseFault .carrierState s := rfl

/-- 40 R105. -/
theorem perform_resume (s : State) :
    perform .resume s = if s.carrier = .paused then { s with carrier := .running, trace := s.trace ++ [.resume] }
      else raiseFault .carrierState s := rfl

/-- 40 R107. -/
theorem perform_delay (n : Nat) (s : State) :
    perform (.delay n) s =
      { s with trace := s.trace ++ [.delay n (if s.carrier = .running then .on else .off)] } := rfl

/-- Settles O15: the block's step performs the head of what is pending. -/
theorem carrierMicroOps : Obligations.CarrierMicroOps := by
  intro s rest ts
  refine ⟨fun moves => ?start, fun moves => ?stop, fun moves => ?pinsReset⟩
  all_goals
    rw [step_blockMoves moves]
    rfl

/-- Settles O16: the block's step performs the head of what is pending. -/
theorem gapMicroOps : Obligations.GapMicroOps := by
  intro s rest ts
  refine ⟨fun moves => ?pause, fun moves => ?resume⟩
  case pause => rw [step_blockMoves moves, perform_pause]
  case resume => rw [step_blockMoves moves, perform_resume]

/-- Settles O17: the block's step performs the head of what is pending. -/
theorem delayMicroOp : Obligations.DelayMicroOp := by
  intro s rest ts n moves
  rw [step_blockMoves moves, perform_delay]

theorem jitterOf_masked_le (k : Nat) : jitterOf true k ≤ Config.jitterMasked := Nat.min_le_right _ _

theorem microsOf_delay (n : Nat) (masked : Bool) (k : Nat) :
    microsOf (.delay n) masked k = n * 8 + jitterOf masked k := rfl

/-- Settles O21: `settle` adds the micro-operation's time to the clock, and replaces the payload where it is over. -/
theorem microOpTimeAndPayload : Obligations.MicroOpTimeAndPayload := by
  intro op s t
  refine ⟨agrees_settle op s t, Nat.le_add_right _ _, fun n hop => ?delay, fun busy session => ?kept,
    fun bound => ?bound⟩
  case delay =>
    rw [settle_wallMicros, hop, microsOf_delay]
    refine ⟨by omega, fun masked => ?_⟩
    have := jitterOf_masked_le s.draws
    rw [masked]
    omega
  case kept =>
    have held : discardsPayload s t = false := by
      rw [discardsPayload, Bool.or_eq_false_iff]
      refine ⟨by simpa using busy, ?_⟩
      rcases session with h | h <;> simp [h]
    rw [settle_payload, held]
    rfl
  case bound =>
    rw [settle_payload]
    split
    · exact List.length_take_le _ _
    · exact bound

end Sys2Proof.Machine
end

section
/-! What a step leaves unchanged (10 R28, R32 to R34, 40 R113): an issue and a micro-operation each have a frame, and
a step is one of these, or touches nothing of the block. -/

namespace Sys2Proof.Machine

/-! Frames. -/

/-- What no issue changes. -/
theorem issue_frame (acc : Acceptance) (s : State) :
    (issue acc s).gmask = s.gmask ∧ (issue acc s).phase = s.phase ∧ (issue acc s).dblk = s.dblk
    ∧ (issue acc s).hostQueue = s.hostQueue ∧ (issue acc s).handlerQueue = s.handlerQueue := by
  rcases issue_cases acc s with ⟨-, h⟩ | ⟨-, -, h⟩ | ⟨-, c, -, h⟩ | ⟨-, e, -, h⟩ <;> rw [h] <;>
    exact ⟨rfl, rfl, rfl, rfl, rfl⟩

/-- An issue appends at most a fault's event. -/
theorem issue_trace (acc : Acceptance) (s : State) : s.trace <+: (issue acc s).trace := by
  rcases issue_cases acc s with ⟨-, h⟩ | ⟨-, -, h⟩ | ⟨-, c, -, h⟩ | ⟨-, e, -, h⟩
  · rw [h]
  · rw [h]
    exact ⟨_, rfl⟩
  · rw [h]
    exact ⟨_, rfl⟩
  · rw [h]
    exact ⟨[], List.append_nil _⟩

/-- What a micro-operation does to the mask. -/
theorem perform_gmask (op : MicroOp) (s : State) :
    (perform op s).gmask = s.gmask ∨ (op = .maskEnter ∧ (perform op s).gmask = true)
    ∨ (op = .maskExit ∧ (perform op s).gmask = s.savedMask) := by
  cases op with
  | maskEnter => exact .inr (.inl ⟨rfl, rfl⟩)
  | maskExit => exact .inr (.inr ⟨rfl, rfl⟩)
  | pause => rw [perform_pause]; split <;> exact .inl rfl
  | resume => rw [perform_resume]; split <;> exact .inl rfl
  | checkPage p => rw [perform]; split <;> exact .inl rfl
  | start | stop | pinsReset | delay _ | setPhase _ _ => exact .inl rfl

/-- What a micro-operation does to the phase and the block number. -/
theorem perform_phase (op : MicroOp) (s : State) :
    ((perform op s).phase = s.phase ∧ (perform op s).dblk = s.dblk)
    ∨ ∃ ph i, op = .setPhase ph i ∧ (perform op s).phase = ph ∧ (perform op s).dblk = i := by
  cases op with
  | setPhase ph i => exact .inr ⟨ph, i, rfl, rfl, rfl⟩
  | pause => rw [perform_pause]; split <;> exact .inl ⟨rfl, rfl⟩
  | resume => rw [perform_resume]; split <;> exact .inl ⟨rfl, rfl⟩
  | checkPage p => rw [perform]; split <;> exact .inl ⟨rfl, rfl⟩
  | start | stop | pinsReset | delay _ | maskEnter | maskExit => exact .inl ⟨rfl, rfl⟩

/-- A micro-operation keeps a code that is latched. -/
theorem perform_fault {op : MicroOp} {s : State} (h : s.fault ≠ .none) : (perform op s).fault = s.fault := by
  rcases perform_pending op s with ⟨kept, -⟩ | ⟨c, -, raised⟩
  · exact kept
  · rw [raised, raiseFault_fault, latchFault_of_ne h]

/-- A busy block's step performs the head of what is pending, in the turns that are left. -/
theorem blockStep_busy {s : State} (ts : List Turn) (h : s.pending ≠ []) :
    ∃ op rest, s.pending = op :: rest
      ∧ blockStep { s with turns := ts }
        = settle op { s with turns := ts } (perform op { s with turns := ts, pending := rest }) := by
  obtain ⟨op, rest, hp⟩ := List.exists_cons_of_ne_nil h
  exact ⟨op, rest, hp, blockStep_cons (s := { s with turns := ts }) hp⟩

/-- Settles O47: of the block's step only the two mask operations write the mask, and an issue never does. -/
theorem onlyMaskOperationsChangeGmask : Obligations.OnlyMaskOperationsChangeGmask := by
  intro s t h
  cases step_cases h with
  | reset ts hts ht => exact .inr (.inr (.inr (.inr ⟨ts, hts, by rw [ht]; rfl⟩)))
  | block ts hp ht =>
    obtain ⟨op, rest, hpending, hstep⟩ := blockStep_busy ts hp
    rw [ht, hstep, settle_gmask]
    rcases perform_gmask op { s with turns := ts, pending := rest } with kept | ⟨rfl, set⟩ | ⟨rfl, restored⟩
    · exact .inl kept
    · exact .inr (.inl ⟨rest, hpending, set⟩)
    · exact .inr (.inr (.inl ⟨rest, hpending, restored⟩))
  | issued ts hq lq a w acc _ _ ht => rw [ht]; exact .inl (issue_frame acc _).1
  | maskWritten ts q b hq hp ht => exact .inr (.inr (.inr (.inl ⟨b, q, hq, hp, by rw [ht]⟩)))
  | statusRead ts hq lq ht => rw [ht]; exact .inl rfl
  | passed ts ht => rw [ht]; exact .inl rfl

/-- Settles O48: of the block's step only SetPhase writes the phase, and an issue never does. -/
theorem onlySetPhaseChangesPhase : Obligations.OnlySetPhaseChangesPhase := by
  intro s t h
  cases step_cases h with
  | reset ts hts ht => rw [ht]; exact .inr (.inr ⟨ts, hts, rfl, rfl⟩)
  | block ts hp ht =>
    obtain ⟨op, rest, hpending, hstep⟩ := blockStep_busy ts hp
    rw [ht, hstep, settle_phase, settle_dblk]
    rcases perform_phase op { s with turns := ts, pending := rest } with kept | ⟨ph, i, rfl, hph, hi⟩
    · exact .inl kept
    · exact .inr (.inl ⟨ph, i, rest, hpending, hph, hi⟩)
  | issued ts hq lq a w acc _ _ ht =>
    obtain ⟨-, hphase, hdblk, -⟩ := issue_frame acc
      { s with turns := ts, hostQueue := hq, handlerQueue := lq, issuer := issuerAfter a s }
    rw [ht]
    exact .inl ⟨hphase, hdblk⟩
  | maskWritten ts q b _ _ ht => rw [ht]; exact .inl ⟨rfl, rfl⟩
  | statusRead ts hq lq ht => rw [ht]; exact .inl ⟨rfl, rfl⟩
  | passed ts ht => rw [ht]; exact .inl ⟨rfl, rfl⟩

/-- Settles O50: a micro-operation and an issue append to the trace, and the host's other actions leave it. -/
theorem traceIsAppendOnly : Obligations.TraceIsAppendOnly := by
  intro s t h
  cases step_cases h with
  | reset ts hts _ => exact .inl ⟨ts, hts⟩
  | block ts hp ht =>
    obtain ⟨op, rest, -, hstep⟩ := blockStep_busy ts hp
    obtain ⟨evs, appended⟩ := perform_trace op { s with turns := ts, pending := rest }
    rw [ht, hstep, settle_trace, appended]
    exact .inr (⟨_, rfl⟩)
  | issued ts hq lq a w acc _ _ ht =>
    rw [ht]
    exact .inr (issue_trace acc
      { s with turns := ts, hostQueue := hq, handlerQueue := lq, issuer := issuerAfter a s })
  | maskWritten ts q b _ _ ht => rw [ht]; exact .inr ⟨[], List.append_nil _⟩
  | statusRead ts hq lq ht => rw [ht]; exact .inr ⟨[], List.append_nil _⟩
  | passed ts ht => rw [ht]; exact .inr ⟨[], List.append_nil _⟩

/-- Settles O51: a halted block ignores issues, its micro-operations keep the first code, and the reset clears it. -/
theorem faultCodeIsSticky : Obligations.FaultCodeIsSticky := by
  intro s t h halted
  constructor
  case left =>
    rintro ⟨ts, hts⟩
    rw [step_reset hts] at h
    rw [← Host.Outcome.next.inj h]
    rfl
  case right =>
    intro noReset
    cases step_cases h with
    | reset ts hts _ => exact absurd ⟨ts, hts⟩ noReset
    | block ts hp ht =>
      obtain ⟨op, rest, -, hstep⟩ := blockStep_busy ts hp
      rw [ht, hstep, settle_fault]
      exact perform_fault halted
    | issued ts hq lq a w acc _ _ ht => rw [ht, issue_of_halted acc (by exact halted)]
    | maskWritten ts q b _ _ ht => rw [ht]
    | statusRead ts hq lq ht => rw [ht]; rfl
    | passed ts ht => rw [ht]

/-! The idle block. -/

/-- The block is idle in `t` and its own state is as in `s` (10 R27 to R36): all but the host's mask, the agents and
the clock. -/
def State.staysIdle (s t : State) : Prop :=
  t.carrier = s.carrier ∧ t.pins = s.pins ∧ t.inSession = s.inSession ∧ t.savedMask = s.savedMask
    ∧ t.pending = [] ∧ t.fault = s.fault ∧ t.phase = s.phase ∧ t.dblk = s.dblk ∧ t.cmdLatch = s.cmdLatch
    ∧ t.payload = s.payload ∧ t.trace = s.trace

/-- What belongs to the environment does not touch the block. -/
theorem staysIdle_environment {s : State} (hp : s.pending = []) (hq : List HostAction) (lq : List HandlerAction)
    (g : Bool) (out : Option (BitVec 32)) :
    s.staysIdle { s with hostQueue := hq, handlerQueue := lq, gmask := g, statusOut := out } :=
  ⟨rfl, rfl, rfl, rfl, hp, rfl, rfl, rfl, rfl, rfl, rfl⟩

theorem staysIdle_refl {s : State} (hp : s.pending = []) : s.staysIdle s :=
  staysIdle_environment hp s.hostQueue s.handlerQueue s.gmask s.statusOut

/-- An issue consumes the issuer's action: the queues are what the issuer left. -/
theorem issueBy_queues {a : Agent} {w : CommandWord} {s t : State} (h : issueBy a w s = .next t) :
    t.hostQueue = s.hostQueue ∧ t.handlerQueue = s.handlerQueue := by
  obtain ⟨acc, -, ht⟩ := runWord_next h
  obtain ⟨-, -, -, hhost, hhandler⟩ := issue_frame acc { s with issuer := issuerAfter a s }
  rw [ht]
  exact ⟨hhost, hhandler⟩

/-- The host thread's step: it leaves the block as it is, or it is an issue, whose action is then over. -/
theorem hostStep_idle {s t : State} (hp : s.pending = []) (h : hostStep s = .next t) :
    s.staysIdle t ∨ ∃ w q, s.hostQueue = .issue w :: q ∧ t.hostQueue = q := by
  cases hq : s.hostQueue with
  | nil =>
    rw [hostStep, hq] at h
    rw [← Host.Outcome.next.inj h]
    exact .inl (staysIdle_refl hp)
  | cons x q =>
    cases x with
    | issue w =>
      rw [hostStep_issue hq] at h
      exact .inr ⟨w, q, rfl, (issueBy_queues h).1⟩
    | writeMask b =>
      rw [hostStep_writeMask hq] at h
      rw [← Host.Outcome.next.inj h]
      exact .inl (staysIdle_environment hp q s.handlerQueue b s.statusOut)
    | readStatus =>
      rw [hostStep_readStatus hq] at h
      rw [← Host.Outcome.next.inj h]
      exact .inl (staysIdle_environment hp q s.handlerQueue s.gmask (some s.status))

/-- The handlers' step, likewise. -/
theorem handlerStep_idle {s t : State} (hp : s.pending = []) (h : handlerStep s = .next t) :
    s.staysIdle t ∨ ∃ w q, s.handlerQueue = .issue w :: q ∧ t.handlerQueue = q := by
  cases hq : s.handlerQueue with
  | nil =>
    rw [handlerStep, hq] at h
    rw [← Host.Outcome.next.inj h]
    exact .inl (staysIdle_refl hp)
  | cons x q =>
    cases x with
    | issue w =>
      rw [handlerStep_issue hq] at h
      exact .inr ⟨w, q, rfl, (issueBy_queues h).2⟩
    | readStatus =>
      rw [handlerStep_readStatus hq] at h
      rw [← Host.Outcome.next.inj h]
      exact .inl (staysIdle_environment hp s.hostQueue q s.gmask (some s.status))

/-- An agent's step on an idle block: the block stays as it is, or somebody issues. -/
theorem agentStep_idle {a : Agent} {s t : State} (hp : s.pending = []) (h : agentStep a s = .next t) :
    s.staysIdle t ∨ (∃ w q, s.hostQueue = .issue w :: q ∧ t.hostQueue = q)
    ∨ ∃ w q, s.handlerQueue = .issue w :: q ∧ t.handlerQueue = q := by
  by_cases he : agentEnabled a s = true
  · cases a with
    | host =>
      rw [agentStep_host he] at h
      exact (hostStep_idle hp h).imp_right .inl
    | handler =>
      rw [agentStep_handler he] at h
      exact (handlerStep_idle hp h).imp_right .inr
    | block => exact absurd hp ((busy_eq_true_iff s).1 he)
  · rw [agentStep_disabled (by simpa using he)] at h
    rw [← Host.Outcome.next.inj h]
    exact .inl (staysIdle_refl hp)

/-- Settles O49: by whose turn it is, the step is the reset or an agent's step on an idle block. -/
theorem idleBlockChangesOnlyByIssueOrReset : Obligations.IdleBlockChangesOnlyByIssueOrReset := by
  intro s t hp h
  cases hts : s.turns with
  | nil =>
    rw [step_default hts] at h
    exact (agentStep_idle hp h).imp_right (.imp_right .inl)
  | cons x ts =>
    cases x with
    | agent a =>
      rw [step_agent hts] at h
      exact (agentStep_idle (s := { s with turns := ts }) hp h).imp_right (.imp_right .inl)
    | systemReset => exact .inr (.inr (.inr ⟨ts, rfl⟩))

/-! A busy block left alone. -/

/-- The micro-operations of a teardown, none of which raises a fault. -/
def MicroOp.harmless (op : MicroOp) : Prop := ∀ s : State, (perform op s).pending = s.pending

theorem harmless_of_mem_teardown {s : State} {op : MicroOp} (h : op ∈ teardown s) : op.harmless := by
  have ops : op = .maskExit ∨ op = .stop ∨ op = .pinsReset ∨ op = .setPhase .idle 0#3 := by
    unfold teardown at h
    split at h <;> split at h <;> simp at h <;> tauto
  rcases ops with rfl | rfl | rfl | rfl <;> exact fun _ => rfl

/-- The block's default step: its head is performed, and either the rest is pending or a teardown is. -/
theorem step_busy {s : State} {op : MicroOp} {rest : List MicroOp} (ht : s.turns = []) (hp : s.pending = op :: rest) :
    ∃ u, step s = .next u ∧ u.turns = []
      ∧ (u.pending = rest ∨ ¬ op.harmless ∧ ∃ v : State, u.pending = teardown v) := by
  refine ⟨_, step_block ht hp, ?_, ?_⟩
  · obtain ⟨-, -, -, -, turns_kept, -⟩ := perform_frame op { s with pending := rest }
    rw [settle_turns, turns_kept, ht]
  · rw [settle_pending]
    rcases perform_pending op { s with pending := rest } with ⟨-, kept⟩ | ⟨c, -, raised⟩
    · exact .inl kept
    · by_cases hs : op.harmless
      · exact .inl (hs _)
      · exact .inr ⟨hs, _, by rw [raised]; rfl⟩

theorem steps_succ_of_next {n : Nat} {s u : State} (h : step s = .next u) : steps (n + 1) s = steps n u := by
  simp only [steps, h]

/-- A list without a faulting micro-operation is over after its length. -/
theorem idle_after_harmless {ops : List MicroOp} (hops : ∀ op ∈ ops, op.harmless) :
    ∀ s : State, s.turns = [] → s.pending = ops → ∃ t, steps ops.length s = .next t ∧ t.pending = [] := by
  induction ops with
  | nil => exact fun s _ hp => ⟨s, rfl, hp⟩
  | cons op rest ih =>
    intro s ht hp
    obtain ⟨u, hstep, hut, hup | ⟨unharmless, -⟩⟩ := step_busy ht hp
    · obtain ⟨t, hrun, hidle⟩ := ih (fun x hx => hops x (List.mem_cons_of_mem op hx)) u hut hup
      exact ⟨t, by rw [List.length_cons, steps_succ_of_next hstep, hrun], hidle⟩
    · exact absurd (hops op List.mem_cons_self) unharmless

theorem idle_after_list_and_teardown {ops : List MicroOp} :
    ∀ s : State, s.turns = [] → s.pending = ops →
      ∃ n t, n ≤ ops.length + 4 ∧ steps n s = .next t ∧ t.pending = [] := by
  induction ops with
  | nil => exact fun s _ hp => ⟨0, s, by omega, rfl, hp⟩
  | cons op rest ih =>
    intro s ht hp
    obtain ⟨u, hstep, hut, hup | ⟨-, v, hup⟩⟩ := step_busy ht hp
    · obtain ⟨n, t, hn, hrun, hidle⟩ := ih u hut hup
      exact ⟨n + 1, t, by rw [List.length_cons]; omega, by rw [steps_succ_of_next hstep, hrun], hidle⟩
    · obtain ⟨t, hrun, hidle⟩ := idle_after_harmless (fun _ => harmless_of_mem_teardown) u hut hup
      have short := teardown_length v
      exact ⟨(teardown v).length + 1, t, by rw [List.length_cons]; omega,
        by rw [steps_succ_of_next hstep, hrun], hidle⟩

/-- Settles O52, by induction on what is pending: each step shortens it or replaces it by a teardown, which has no
faulting micro-operation. -/
theorem busyBlockBecomesIdle : Obligations.BusyBlockBecomesIdle :=
  fun s ht => idle_after_list_and_teardown s ht rfl

end Sys2Proof.Machine
end

section
/-! The expansions as lists (42 R163 to R166, 43 R193 to R199): frames, phases, critical sections, durations. -/

namespace Sys2Proof.Machine

/-! Frames. -/

theorem msbFirst_ofBool (b : Bool) : msbFirst (BitVec.ofBool b) = [b] := by
  cases b <;> decide

theorem msbFirst_writeFrame (opc : BitVec 2) (lock : Bool) (data : DataWord) (addr : BitVec 3) :
    msbFirst (writeFrame opc lock data addr) = msbFirst opc ++ [lock] ++ msbFirst data ++ msbFirst addr := by
  simp only [writeFrame, msbFirst_append, msbFirst_ofBool]

theorem msbFirst_writeFrame_page0 (lock : Bool) (data : DataWord) (addr : BitVec 3) :
    msbFirst (writeFrame 0b10#2 lock data addr) = writeFrameBits false lock data addr := by
  rw [msbFirst_writeFrame, show msbFirst 0b10#2 = [true, false] by decide]
  rfl

theorem msbFirst_writeFrame_page1 (lock : Bool) (data : DataWord) (addr : BitVec 3) :
    msbFirst (writeFrame 0b11#2 lock data addr) = writeFrameBits true lock data addr := by
  rw [msbFirst_writeFrame, show msbFirst 0b11#2 = [true, true] by decide]
  rfl

theorem msbFirst_resetFrame : msbFirst resetFrame = [true, false] := by decide

/-- Settles O41: the frame is a concatenation, and its upper part is emitted first. -/
theorem frameBitsInEmissionOrder : Obligations.FrameBitsInEmissionOrder :=
  ⟨fun lock data addr => ⟨msbFirst_writeFrame_page0 lock data addr, msbFirst_writeFrame_page1 lock data addr⟩,
    msbFirst_resetFrame⟩

theorem cellsx_cons (t : TimingProfile) (b : Bool) (bs : List Bool) :
    cellsx t (b :: bs) = bitx t b ++ cellsx t bs := rfl

theorem cellsx_append (t : TimingProfile) (xs ys : List Bool) : cellsx t (xs ++ ys) = cellsx t xs ++ cellsx t ys :=
  List.flatMap_append

/-- A start gap and the cells of a bit sequence: what `framex` makes of a frame's bits (30 R86). -/
def framedx (t : TimingProfile) (bits : List Bool) : List MicroOp := gapx t.startGap ++ cellsx t bits

theorem framex_eq_framedx {n : Nat} (t : TimingProfile) (f : BitVec n) : framex t f = framedx t (msbFirst f) := rfl

theorem rstx_eq_framedx (t : TimingProfile) : rstx t = framedx t [true, false] := rfl

/-- A block write by its two framed bit sequences (42 R163), on any page. -/
theorem blkx_eq_framedx (t : TimingProfile) (p : BitVec 8) (a : BitVec 3) (l : Bool) (d : DataWord) :
    blkx t p a l d = [MicroOp.checkPage p, .delay t.waitTime] ++ framedx t (writeFrameBits (decide (p = 1#8)) l d a)
      ++ [MicroOp.delay t.program, .delay t.waitTime] ++ framedx t [true, false] := by
  simp only [blkx, framedx, writeFrameBits, cellsx_append, cellsx_cons, rstx_eq_framedx, List.append_assoc,
    List.cons_append, List.nil_append]

/-- Settles O42: the bits of `blkx` between its waits are those of the frame's number. -/
theorem blockWriteIsTwoFrames : Obligations.BlockWriteIsTwoFrames := by
  intro t a l d
  refine ⟨?page0, ?page1, blkx_length t 0#8 a l d⟩
  case page0 =>
    rw [blkx_eq_framedx, framex_eq_framedx, framex_eq_framedx, msbFirst_writeFrame_page0, msbFirst_resetFrame]
    rfl
  case page1 =>
    rw [blkx_eq_framedx, framex_eq_framedx, framex_eq_framedx, msbFirst_writeFrame_page1, msbFirst_resetFrame]
    rfl

/-! What a block write is made of: no mask operation and no phase. -/

/-- The micro-operations of a block write. -/
def MicroOp.ofBlockWrite : MicroOp → Bool
  | .pause | .resume | .delay _ | .checkPage _ => true
  | .start | .stop | .pinsReset | .maskEnter | .maskExit | .setPhase _ _ => false

theorem gapx_ofBlockWrite (d : Nat) : (gapx d).all MicroOp.ofBlockWrite = true := rfl

theorem bitx_ofBlockWrite (t : TimingProfile) (v : Bool) : (bitx t v).all MicroOp.ofBlockWrite = true := rfl

theorem cellsx_ofBlockWrite (t : TimingProfile) (bits : List Bool) :
    (cellsx t bits).all MicroOp.ofBlockWrite = true := by
  induction bits with
  | nil => rfl
  | cons b bs ih => rw [cellsx_cons, List.all_append, bitx_ofBlockWrite, ih]; rfl

theorem framedx_ofBlockWrite (t : TimingProfile) (bits : List Bool) :
    (framedx t bits).all MicroOp.ofBlockWrite = true := by
  rw [framedx, List.all_append, gapx_ofBlockWrite, cellsx_ofBlockWrite]
  rfl

theorem rstx_ofBlockWrite (t : TimingProfile) : (rstx t).all MicroOp.ofBlockWrite = true :=
  framedx_ofBlockWrite t [true, false]

theorem blkx_ofBlockWrite (t : TimingProfile) (p : BitVec 8) (a : BitVec 3) (l : Bool) (d : DataWord) :
    (blkx t p a l d).all MicroOp.ofBlockWrite = true := by
  simp only [blkx_eq_framedx, List.all_append, framedx_ofBlockWrite]
  rfl

theorem phases_ofBlockWrite {ops : List MicroOp} (h : ops.all MicroOp.ofBlockWrite = true) :
    ops.filterMap phaseSet = [] := by
  rw [List.filterMap_eq_nil_iff]
  intro op hop
  have := List.all_eq_true.1 h op hop
  cases op with
  | setPhase ph i => cases this
  | start | stop | pause | resume | pinsReset | delay _ | maskEnter | maskExit | checkPage _ => rfl

theorem count_ofBlockWrite {ops : List MicroOp} (h : ops.all MicroOp.ofBlockWrite = true) {op : MicroOp}
    (hop : op.ofBlockWrite = false) : ops.count op = 0 :=
  List.count_eq_zero.2 fun hmem => absurd ((List.all_eq_true.1 h op hmem).symm.trans hop) (by decide)

/-! The data blocks of a session. -/

theorem dataBlocksx_cons (t : TimingProfile) (p : BitVec 8) (i : Nat) (x : DataWord) (xs : List DataWord) :
    dataBlocksx t p i (x :: xs) = blkx t p (BitVec.ofNat 3 i) false x
      ++ [MicroOp.setPhase .dataBlockSent (BitVec.ofNat 3 i)] ++ dataBlocksx t p (i + 1) xs := rfl

theorem setPhase_ne_of_phaseSet {op : MicroOp} (h : phaseSet op = none) (ph : Phase) (i : BitVec 3) :
    MicroOp.setPhase ph i ≠ op := by
  rintro rfl
  cases h

theorem dataBlocksx_count {op : MicroOp} (hop : op.ofBlockWrite = false) (hphase : phaseSet op = none)
    (t : TimingProfile) (p : BitVec 8) (w : List DataWord) : ∀ i, (dataBlocksx t p i w).count op = 0 := by
  induction w with
  | nil => exact fun _ => rfl
  | cons x xs ih =>
    intro i
    have other := setPhase_ne_of_phaseSet hphase .dataBlockSent (BitVec.ofNat 3 i)
    rw [dataBlocksx_cons, List.count_append, List.count_append, count_ofBlockWrite (blkx_ofBlockWrite ..) hop, ih,
      List.count_cons_of_ne other, List.count_nil]

theorem dataBlocksx_phases (t : TimingProfile) (p : BitVec 8) (w : List DataWord) :
    ∀ i, (dataBlocksx t p i w).filterMap phaseSet
      = (List.range w.length).map fun k => (.dataBlockSent, BitVec.ofNat 3 (k + i)) := by
  induction w with
  | nil => exact fun _ => rfl
  | cons x xs ih =>
    intro i
    rw [dataBlocksx_cons, List.filterMap_append, List.filterMap_append, phases_ofBlockWrite (blkx_ofBlockWrite ..), ih,
      List.length_cons, List.range_succ_eq_map, List.map_cons, List.map_map]
    simp [phaseSet, Function.comp_def, Nat.add_comm 1, Nat.add_assoc]

/-- Settles O39: the block writes and the final reset hold no mask operation, and the session itself one of each. -/
theorem sessionMasksOnce : Obligations.SessionMasksOnce := by
  intro t F w
  have count_parts (op : MicroOp) (hop : op.ofBlockWrite = false) (hphase : phaseSet op = none) :
      (fmtx t F w).count op
        = [MicroOp.start, .maskEnter, .maskExit, .stop, .pinsReset].count op := by
    simp only [fmtx, List.count_append, count_ofBlockWrite (blkx_ofBlockWrite ..) hop,
      count_ofBlockWrite (rstx_ofBlockWrite t) hop, dataBlocksx_count hop hphase, List.count_cons, List.count_nil,
      beq_eq_false_iff_ne.2 (setPhase_ne_of_phaseSet hphase _ _)]
    simp only [Bool.false_eq_true, if_false]
    omega
  exact ⟨count_parts .maskEnter rfl rfl, count_parts .maskExit rfl rfl⟩

/-- Settles O40: only the session's own SetPhases set a phase. -/
theorem sessionPhaseSequence : Obligations.SessionPhaseSequence := by
  intro t F w
  simp only [fmtx, List.filterMap_append, phases_ofBlockWrite (blkx_ofBlockWrite ..),
    phases_ofBlockWrite (rstx_ofBlockWrite t), dataBlocksx_phases, List.append_assoc, List.nil_append]
  rfl

/-! Durations. -/

theorem writeFrameBits_count_true (page1 lock : Bool) (data : DataWord) (addr : BitVec 3) :
    (writeFrameBits page1 lock data addr).count true
      = 1 + page1.toNat + lock.toNat + popcount data + popcount addr := by
  simp only [writeFrameBits, List.count_append, msbFirst_count_true]
  cases page1 <;> cases lock <;> rfl

theorem writeFrameBits_length (page1 lock : Bool) (data : DataWord) (addr : BitVec 3) :
    (writeFrameBits page1 lock data addr).length = 38 := by
  simp [writeFrameBits]

/-- The page bit is the page's number. -/
theorem page_toNat {p : BitVec 8} (hp : p = 0#8 ∨ p = 1#8) : (decide (p = 1#8)).toNat = p.toNat := by
  rcases hp with rfl | rfl <;> rfl

/-- 42 R164: the frame's 1 bits and 0 bits, and the reset frame's one of each. -/
theorem clocks_blkx (t : TimingProfile) {p : BitVec 8} (a : BitVec 3) (l : Bool) (d : DataWord)
    (hp : p = 0#8 ∨ p = 1#8) : clocks (blkx t p a l d) = blockClocks t p a l d := by
  obtain ⟨ones, hones⟩ : ∃ n, n = 1 + p.toNat + l.toNat + popcount d + popcount a := ⟨_, rfl⟩
  have htrue : (writeFrameBits (decide (p = 1#8)) l d a).count true = ones := by
    rw [writeFrameBits_count_true, page_toNat hp, hones]
  have hlength := writeFrameBits_length (decide (p = 1#8)) l d a
  have hsum := count_true_add_count_false (writeFrameBits (decide (p = 1#8)) l d a)
  obtain ⟨zeros, hfalse⟩ : ∃ n, (writeFrameBits (decide (p = 1#8)) l d a).count false = n := ⟨_, rfl⟩
  have hzeros : 40 - (ones + 1) = zeros + 1 := by omega
  rw [blkx_eq_framedx, blockClocks, ← hones, hzeros]
  simp only [framedx, clocks_append, clocks_gapx, clocks_cellsx, htrue, hfalse, hlength, clocks_cons, clocks_nil,
    clocksOf]
  simp only [List.count_cons, List.count_nil, List.length_cons, List.length_nil, Nat.add_mul]
  simp
  omega

/-- Settles O43: the clocks of the two framed bit sequences and the waits between them. -/
theorem blockWriteDuration : Obligations.BlockWriteDuration :=
  fun t _ a l d hp => clocks_blkx t a l d hp

theorem clocks_dataBlocksx (t : TimingProfile) {p : BitVec 8} (hp : p = 0#8 ∨ p = 1#8) (w : List DataWord) :
    ∀ i, clocks (dataBlocksx t p i w)
      = ((List.range w.length).map fun k => blockClocks t p (BitVec.ofNat 3 (k + i)) false (w.getD k 0)).sum := by
  induction w with
  | nil => exact fun _ => rfl
  | cons x xs ih =>
    intro i
    rw [dataBlocksx_cons, clocks_append, clocks_append, clocks_blkx t _ _ _ hp, ih, List.length_cons,
      List.range_succ_eq_map, List.map_cons, List.map_map, List.sum_cons]
    simp [clocks_cons, clocks_nil, clocksOf, Function.comp_def, Nat.add_comm 1, Nat.add_assoc]

/-- Settles O44: the session's own micro-operations take no nominal time. -/
theorem sessionDuration : Obligations.SessionDuration := by
  intro t F w hp
  simp only [fmtx, clocks_append, clocks_blkx t 0#3 false F.config (.inl rfl), clocks_dataBlocksx t hp, clocks_rstx]
  simp [clocks_cons, clocks_nil, clocksOf]

end Sys2Proof.Machine
end

section
/-! The commands on a ready block: what each acceptance loads and what its run puts on air (40 R120, R121,
41 R140 to R145, 42 R161 to R166). -/

namespace Sys2Proof.Machine

/-! Acceptance. -/

theorem exec_of_accepts {i : Instr} {s : State} {e : Expansion} (hr : s.ready) (h : acceptanceOf i s = .accepts e) :
    exec i s = .next (s.load e) := by
  rw [exec_eq_issue, h, issue_accepts e hr]

theorem exec_of_fails {i : Instr} {s : State} {c : FaultCode} (hr : s.ready) (h : acceptanceOf i s = .fails c) :
    exec i s = .next (raiseFault c s) := by
  rw [exec_eq_issue, h, issue_fails c hr]

/-- A command without a payload that finds the carrier as it needs it is loaded. -/
theorem exec_of_carrier {i : Instr} {s : State} {c : Carrier} {ops : List MicroOp} {latch : CommandWord}
    (hr : s.ready) (hc : s.carrier = c) (h : acceptanceOf i s = needCarrier c ⟨ops, latch, none⟩ s) :
    exec i s = .next { s with pending := ops, cmdLatch := latch } :=
  exec_of_accepts hr (h.trans (needCarrier_of_eq hc _))

/-- A command of the transmitter on a ready block with the carrier running: it is loaded, and its expansion plays its
events to the end. -/
theorem exec_plays {i : Instr} {s : State} {ops : List MicroOp} {latch : CommandWord} {evs : List Event}
    (hr : s.ready) (hc : s.carrier = .running)
    (h : acceptanceOf i s = needCarrier .running ⟨ops, latch, none⟩ s) (hplays : plays ops evs) :
    exec i s = .next { s with pending := ops, cmdLatch := latch }
    ∧ (s.turns = [] → ∀ a, exec i s = .next a →
        runsTo ops.length a { s with cmdLatch := latch, trace := s.trace ++ evs }) := by
  have loaded := exec_of_carrier hr hc h
  refine ⟨loaded, fun ht a ha => ?_⟩
  rw [← Host.Outcome.next.inj (loaded.symm.trans ha)]
  exact runsTo_load_of_plays (e := ⟨ops, latch, none⟩) hplays hr ht hc rfl

/-- Settles O22: the one micro-operation of the expansion starts the carrier. -/
theorem carrierStartCompletes : Obligations.CarrierStartCompletes := by
  intro s hr hc
  refine ⟨exec_of_carrier (i := .carrierStart) hr hc rfl, fun ht => ?_⟩
  exact runsTo_of_carries
    (carries_start { s with pending := [.start], cmdLatch := 0x0100000000000000#64 } ht) rfl

/-- Settles O23: no check can fail, and the two micro-operations stop the carrier and reset the pins. -/
theorem carrierStopCompletes : Obligations.CarrierStopCompletes := by
  intro s hr
  refine ⟨exec_of_accepts (i := .carrierStop) hr rfl, fun ht => ?_⟩
  have run := runsTo_of_carries (carries_cons
    (carries_stop { s with pending := [.stop, .pinsReset], cmdLatch := 0x0200000000000000#64 } ht)
    (carries_pinsReset _ (by exact ht))) rfl
  rw [List.append_assoc] at run
  exact run

/-- Settles O24: the expansion is one bit cell, which plays its events. -/
theorem writeBitCompletes : Obligations.WriteBitCompletes :=
  fun _ v hr hc => exec_plays hr hc rfl (plays_bitx Config.timing v)

/-- Settles O26: the expansion is one gap, whose duration is the operand as a number. -/
theorem writeGapCompletes : Obligations.WriteGapCompletes :=
  fun _ d hr hc => exec_plays hr hc rfl (plays_gapx d.toNat)

theorem frameEvents_reset (t : TimingProfile) :
    frameEvents t [true, false] = gapEvents t.startGap ++ cellEvents t true ++ cellEvents t false := rfl

/-- Settles O27: the expansion is the reset sequence, which plays the frame `10`. -/
theorem writeResetCompletes : Obligations.WriteResetCompletes := by
  intro s hr hc
  obtain ⟨loaded, runs⟩ := exec_plays (i := .writeReset) hr hc rfl (plays_rstx Config.timing)
  refine ⟨loaded, fun ht a ha => ?_⟩
  have run := runs ht a ha
  rw [frameEvents_reset, ← List.append_assoc, ← List.append_assoc] at run
  exact run

/-- Settles O28: on a valid page the block write plays its events. -/
theorem writeBlockCompletes : Obligations.WriteBlockCompletes := by
  intro s page lock addr data hr hc
  refine ⟨exec_of_carrier (i := .writeBlock page lock addr data) hr hc rfl, fun hp ht a ha => ?_⟩
  have run := (exec_plays (i := .writeBlock page lock addr data) hr hc rfl
    (plays_blkx Config.timing addr lock data hp)).2 ht a ha
  rwa [blkx_length] at run

/-- A block write begins with its page check (42 R161, R163). -/
theorem blkx_checks_page_first (t : TimingProfile) (p : BitVec 8) (a : BitVec 3) (l : Bool) (d : DataWord) :
    ∃ rest, blkx t p a l d = .checkPage p :: rest := ⟨_, rfl⟩

/-- Settles O29: the page check faults before anything is performed, and the teardown stops the carrier. -/
theorem writeBlockInvalidPageFaults : Obligations.WriteBlockInvalidPageFaults := by
  intro s page lock addr data hr hc outside not_zero not_one
  refine ⟨_, exec_of_carrier (i := .writeBlock page lock addr data) hr hc rfl, hr.1, rfl, fun ht => ?_⟩
  obtain ⟨rest, hblk⟩ := blkx_checks_page_first Config.timing page addr lock data
  have run := runsTo_of_fault
    (s := { s with
      pending := blkx Config.timing page addr lock data, cmdLatch := wordWriteBlock page lock addr data })
    (carries_nil _) hblk ht hr.1 (perform_checkPage_of_invalid (not_or.2 ⟨not_zero, not_one⟩) _)
  have hp := hr.2
  obtain ⟨⟩ := s
  simp only at hc outside hp
  subst hc outside hp
  simpa [tornDown, teardown] using run

/-! On-air frames (30 R84 to R86). -/

/-- A write frame by the command that emits it: the block write of its page, given as the framed frame. -/
theorem exec_writeFrame {i : Instr} {s : State} {p : BitVec 8} {page1 lock : Bool} {data : DataWord} {addr : BitVec 3}
    {latch : CommandWord} {ops : List MicroOp} (hr : s.ready) (hc : s.carrier = .running) (hp : p = 0#8 ∨ p = 1#8)
    (hpage : decide (p = 1#8) = page1)
    (h : acceptanceOf i s = needCarrier .running ⟨blkx Config.timing p addr lock data, latch, none⟩ s)
    (hops : blkx Config.timing p addr lock data = ops) :
    exec i s = .next { s with pending := ops, cmdLatch := latch }
    ∧ (s.turns = [] → ∀ a, exec i s = .next a → runsTo 170 a { s with
        cmdLatch := latch,
        trace := s.trace ++ [.delay Config.timing.waitTime .on]
          ++ frameEvents Config.timing (writeFrameBits page1 lock data addr)
          ++ [.delay Config.timing.program .on, .delay Config.timing.waitTime .on]
          ++ frameEvents Config.timing [true, false] }) := by
  obtain ⟨loaded, runs⟩ := exec_plays hr hc h (plays_blkx Config.timing addr lock data hp)
  refine ⟨hops ▸ loaded, fun ht a ha => ?_⟩
  have run := runs ht a ha
  rw [blkx_length, hpage] at run
  simpa only [blockEvents, List.append_assoc, List.cons_append, List.nil_append] using run

/-- Settles O36: the acceptance is that of the command that emits the frame, whose block write is the framed frame. -/
theorem airFramesComplete : Obligations.AirFramesComplete := by
  intro s hr hc
  have reset := exec_plays (i := .airReset) hr hc rfl (plays_rstx Config.timing)
  refine ⟨fun page1 lock data addr i w f hi => ?write, reset.1, reset.2⟩
  case write =>
    obtain ⟨onPage0, onPage1, -⟩ := blockWriteIsTwoFrames Config.timing addr lock data
    rcases hi with ⟨rfl, rfl, rfl, rfl⟩ | ⟨rfl, rfl, rfl, rfl⟩
    · exact exec_writeFrame (i := .airWritePage0 lock data addr) hr hc (.inl rfl) rfl rfl onPage0
    · exact exec_writeFrame (i := .airWritePage1 lock data addr) hr hc (.inr rfl) rfl rfl onPage1

end Sys2Proof.Machine
end

section
/-! The acceptance of WRITE_FORMAT (43 R192, 60 R235): the identifier's bytes, the checks in their order, and the
carrier check of every command. -/

namespace Sys2Proof.Machine

/-! The identifier. -/

theorem idTailZero_eq_false_iff (idlen : BitVec 4) (id : BitVec 40) :
    idTailZero idlen id = false ↔ ∃ k : Fin 5, idlen.toNat ≤ k.val ∧ id.extractLsb' (8 * k.val) 8 ≠ 0#8 := by
  rw [idTailZero, List.all_eq_false]
  simp only [List.mem_range, idByte, Bool.or_eq_true, decide_eq_true_eq, beq_iff_eq, not_or, not_lt]
  exact ⟨fun ⟨k, hk, h⟩ => ⟨⟨k, hk⟩, h⟩, fun ⟨k, h⟩ => ⟨k.val, k.isLt, h⟩⟩

theorem idTailZero_em (id : BitVec 40) : idTailZero 5#4 id = true := rfl

theorem idBytes_em (id : BitVec 40) :
    idBytes 5#4 id = [id.extractLsb' 0 8, id.extractLsb' 8 8, id.extractLsb' 16 8, id.extractLsb' 24 8,
      id.extractLsb' 32 8] := rfl

/-- The two bytes above a HID identifier are zero. -/
theorem idTailZero_hid (id : BitVec 24) : idTailZero 3#4 (0#16 ++ id) = true := by
  rw [← Bool.not_eq_false, idTailZero_eq_false_iff]
  rintro ⟨k, hk, nonzero⟩
  have above : 24 ≤ 8 * k.val := by
    have : (3#4).toNat = 3 := rfl
    omega
  refine nonzero ?_
  rw [extract_append_high _ _ above, BitVec.extractLsb'_zero]

theorem idBytes_hid (id : BitVec 24) :
    idBytes 3#4 (0#16 ++ id) = [id.extractLsb' 0 8, id.extractLsb' 8 8, id.extractLsb' 16 8] := by
  have byte (k : Nat) (hk : 8 * k + 8 ≤ 24) : idByte (0#16 ++ id) k = id.extractLsb' (8 * k) 8 :=
    extract_append_low _ _ hk
  rw [← byte 0 (by decide), ← byte 1 (by decide), ← byte 2 (by decide)]
  rfl

/-! The checks. -/

theorem formatAcceptance_of_lookup {fmt : BitVec 8} {F : FormatDescriptor} (h : Config.lookup fmt = some F)
    (idlen : BitVec 4) (id : BitVec 40) (s : State) :
    formatAcceptance fmt idlen id s = descriptorAcceptance F (wordWriteFormat fmt idlen id) idlen id s := by
  simp only [formatAcceptance, h]

theorem formatAcceptance_em (id : BitVec 40) (s : State) :
    formatAcceptance 0#8 5#4 id s = descriptorAcceptance Config.em (wordWriteEm id) 5#4 id s :=
  formatAcceptance_of_lookup lookup_tag_zero _ _ _

theorem formatAcceptance_hid (id : BitVec 24) (s : State) :
    formatAcceptance 1#8 3#4 (0#16 ++ id) s
      = descriptorAcceptance Config.hid (wordWriteHid id) 3#4 (0#16 ++ id) s :=
  formatAcceptance_of_lookup lookup_tag_one _ _ _

section
variable {F : FormatDescriptor} {idlen : BitVec 4} {id : BitVec 40} {s : State}
  (hlen : idlen.toNat = F.idBytes) (htail : idTailZero idlen id = true) (word : CommandWord)

include hlen htail

theorem descriptorAcceptance_of_carrier (hc : s.carrier ≠ .stopped) :
    descriptorAcceptance F word idlen id s = .fails .carrierState := by
  rw [descriptorAcceptance, if_neg (not_not.2 hlen), if_neg (by simp [htail]), if_pos hc]

theorem descriptorAcceptance_of_contract (hc : s.carrier = .stopped)
    (hw : (F.encode (idBytes idlen id)).length ≠ F.nwords) :
    descriptorAcceptance F word idlen id s = .fails .encoderContract := by
  rw [descriptorAcceptance, if_neg (not_not.2 hlen), if_neg (by simp [htail]), if_neg (not_not.2 hc), if_pos hw]

theorem descriptorAcceptance_of_checks {w : List DataWord} (hc : s.carrier = .stopped)
    (he : F.encode (idBytes idlen id) = w) (hw : w.length = F.nwords) :
    descriptorAcceptance F word idlen id s = .accepts ⟨fmtx Config.timing F w, word, some w⟩ := by
  rw [descriptorAcceptance, if_neg (not_not.2 hlen), if_neg (by simp [htail]), if_neg (not_not.2 hc), he,
    if_neg (not_not.2 hw)]

end

/-- A format command that finds the carrier on (60 R235 check 4). -/
theorem emAcceptance_of_carrier {s : State} (id : BitVec 40) (hc : s.carrier ≠ .stopped) :
    acceptanceOf (.writeEm id) s = .fails .carrierState := by
  rw [acceptanceOf, formatAcceptance_em]
  exact descriptorAcceptance_of_carrier rfl (idTailZero_em id) _ hc

theorem hidAcceptance_of_carrier {s : State} (id : BitVec 24) (hc : s.carrier ≠ .stopped) :
    acceptanceOf (.writeHid id) s = .fails .carrierState := by
  rw [acceptanceOf, formatAcceptance_hid]
  exact descriptorAcceptance_of_carrier rfl (idTailZero_hid id) _ hc

/-- A command of another family that finds the carrier in the wrong state (60 R235 check 4). -/
theorem exec_of_wrong_carrier {i : Instr} {s : State} {c : Carrier} {e : Expansion} (hr : s.ready)
    (hc : s.carrier ≠ c) (h : acceptanceOf i s = needCarrier c e s) : exec i s = .next (raiseFault .carrierState s) :=
  exec_of_fails hr (h.trans (needCarrier_of_ne hc e))

/-- Settles O13: each command's acceptance fails at its carrier check, WRITE_EM and WRITE_HID after the checks their
operands pass. -/
theorem wrongCarrierFaults : Obligations.WrongCarrierFaults :=
  ⟨fun _ hr hc => exec_of_wrong_carrier (i := .carrierStart) hr hc rfl,
    fun _ id hr hc => exec_of_fails hr (emAcceptance_of_carrier id hc),
    fun _ id hr hc => exec_of_fails hr (hidAcceptance_of_carrier id hc),
    fun _ v hr hc => exec_of_wrong_carrier (i := .writeBit v) hr hc rfl,
    fun _ b hr hc => exec_of_wrong_carrier (i := .writeByte b) hr hc rfl,
    fun _ d hr hc => exec_of_wrong_carrier (i := .writeGap d) hr hc rfl,
    fun _ hr hc => exec_of_wrong_carrier (i := .writeReset) hr hc rfl,
    fun _ page lock addr data hr hc => exec_of_wrong_carrier (i := .writeBlock page lock addr data) hr hc rfl⟩

/-- Settles O37: the command that emits the frame finds the carrier in the wrong state. -/
theorem airFramesNeedTheCarrier : Obligations.AirFramesNeedTheCarrier :=
  fun _ hr hc =>
    ⟨fun lock data addr => ⟨exec_of_wrong_carrier (i := .airWritePage0 lock data addr) hr hc rfl,
      exec_of_wrong_carrier (i := .airWritePage1 lock data addr) hr hc rfl⟩,
    exec_of_wrong_carrier (i := .airReset) hr hc rfl⟩

/-- Settles O30: the table's answer first, then the descriptor's checks one after the other. -/
theorem writeFormatChecksInOrder : Obligations.WriteFormatChecksInOrder := by
  intro s fmt idlen id hr
  rw [exec_writeFormat]
  cases hF : Config.formats.find? (fun F => F.tag == fmt) with
  | none =>
    have hlookup : Config.lookup fmt = none := hF
    simp only [formatAcceptance, hlookup, issue_fails _ hr]
  | some F =>
    rw [formatAcceptance_of_lookup (F := F) hF, descriptorAcceptance]
    refine congrArg Host.Outcome.next ?_
    by_cases hlen : idlen.toNat ≠ F.idBytes
    · simp only [if_pos hlen, issue_fails _ hr]
    by_cases htail : idTailZero idlen id = false
    · simp only [if_neg hlen, if_pos htail, if_pos ((idTailZero_eq_false_iff idlen id).1 htail), issue_fails _ hr]
    have hzero := mt (idTailZero_eq_false_iff idlen id).2 htail
    by_cases hc : s.carrier ≠ .stopped
    · simp only [if_neg hlen, if_neg htail, if_neg hzero, if_pos hc, issue_fails _ hr]
    by_cases hw : (F.encode (idBytes idlen id)).length ≠ F.nwords
    · simp only [if_neg hlen, if_neg htail, if_neg hzero, if_neg hc, if_pos hw, issue_fails _ hr]
      exact (if_pos hw).symm
    · simp only [if_neg hlen, if_neg htail, if_neg hzero, if_neg hc, if_neg hw, issue_accepts _ hr]
      exact (if_neg hw).symm

end Sys2Proof.Machine
end

section
/-! Faults and their teardown (60 R232, R233). -/

namespace Sys2Proof.Machine

/-- Settles O12: the teardown's parts run in order, from the state the fault leaves. -/
theorem faultTearsDown : Obligations.FaultTearsDown := by
  intro c s _ hf ht
  refine ⟨by rw [raiseFault_fault, hf, latchFault_none], rfl, rfl, ?run⟩
  case run =>
    rw [raiseFault_of_none c hf]
    exact carries_teardown c s ht [] _ (by rw [List.append_nil]; exact agrees_refl _)

end Sys2Proof.Machine
end

section
/-! The session (43 R193): its opening up to the configuration block, its data blocks and its closing. -/

namespace Sys2Proof.Machine

/-- The micro-operations of a session up to its configuration block. -/
def sessionOpening (t : TimingProfile) (F : FormatDescriptor) : List MicroOp :=
  [MicroOp.start, .setPhase .carrierStarted 0#3] ++ [MicroOp.maskEnter]
    ++ blkx t 0#8 0#3 false F.config ++ [MicroOp.setPhase .configBlockSent 0#3]

/-- The micro-operations of a session after its data blocks. -/
def sessionClosing (t : TimingProfile) : List MicroOp :=
  rstx t ++ [MicroOp.setPhase .resetSent 0#3] ++ [MicroOp.maskExit]
    ++ [MicroOp.stop, .pinsReset, .setPhase .carrierStopped 0#3, .setPhase .idle 0#3]

theorem fmtx_eq (t : TimingProfile) (F : FormatDescriptor) (w : List DataWord) :
    fmtx t F w = sessionOpening t F ++ dataBlocksx t F.dataPage 1 w ++ sessionClosing t := by
  simp only [fmtx, sessionOpening, sessionClosing, List.append_assoc]

/-- The state after a session's opening. -/
def sessionOpened (t : TimingProfile) (F : FormatDescriptor) (s : State) : State :=
  { s with
    carrier := .running, pins := .configured, savedMask := s.gmask, gmask := true, inSession := true,
    phase := .configBlockSent, dblk := 0#3,
    trace := s.trace ++ [Event.start 125000 ⟨1, 2⟩, .mask s.gmask] ++ blockEvents t false false F.config 0#3 }

theorem carries_sessionOpening (t : TimingProfile) (F : FormatDescriptor) (s : State) (ht : s.turns = []) :
    carries (sessionOpening t F) s (sessionOpened t F s) := by
  have carrierOn := carries_cons (carries_start s ht) (carries_setPhase _ (by exact ht) .carrierStarted 0#3)
  have masked := carries_append carrierOn (carries_maskEnter _ (by exact ht))
  have configured := carries_append masked
    (plays_blkx t 0#3 false F.config (.inl rfl) _ (by exact ht) (by rfl))
  have whole := carries_append configured (carries_setPhase _ (by exact ht) .configBlockSent 0#3)
  simp only [sessionOpening, sessionOpened, List.append_assoc] at whole ⊢
  exact whole

theorem carries_sessionClosing (t : TimingProfile) (s : State) (ht : s.turns = []) (hc : s.carrier = .running) :
    carries (sessionClosing t) s { s with
      carrier := .stopped, pins := .reset, gmask := s.savedMask, inSession := false, phase := .idle, dblk := 0#3,
      trace := s.trace ++ frameEvents t [true, false] ++ [Event.unmask s.savedMask, .stop, .pinsReset] } := by
  have finalReset := carries_append (plays_rstx t s ht hc) (carries_setPhase _ (by exact ht) .resetSent 0#3)
  have unmasked := carries_append finalReset (carries_maskExit _ (by exact ht))
  have whole := carries_append unmasked (carries_cons (carries_stop _ (by exact ht))
    (carries_cons (carries_pinsReset _ (by exact ht)) (carries_cons
      (carries_setPhase _ (by exact ht) .carrierStopped 0#3) (carries_setPhase _ (by exact ht) .idle 0#3))))
  simp only [List.append_assoc] at whole ⊢
  exact whole

/-- The events of a session on a valid data page (43 R193). -/
def sessionEvents (g : Bool) (F : FormatDescriptor) (w : List DataWord) : List Event :=
  [Event.start 125000 ⟨1, 2⟩, .mask g]
    ++ blockEvents Config.timing false false F.config 0#3
    ++ ((List.range w.length).flatMap fun k =>
        blockEvents Config.timing (decide (F.dataPage = 1#8)) false (w.getD k 0) (BitVec.ofNat 3 (k + 1)))
    ++ frameEvents Config.timing [true, false]
    ++ [Event.unmask g, .stop, .pinsReset]

/-- A session on a valid data page leads from a stopped carrier to a stopped carrier. -/
theorem carries_fmtx {F : FormatDescriptor} (hpage : F.dataPage = 0#8 ∨ F.dataPage = 1#8) (w : List DataWord)
    (s : State) (ht : s.turns = []) :
    carries (fmtx Config.timing F w) s { s with
      carrier := .stopped, pins := .reset, inSession := false, savedMask := s.gmask, phase := .idle, dblk := 0#3,
      trace := s.trace ++ sessionEvents s.gmask F w } := by
  obtain ⟨ph, db, blocks⟩ := carries_dataBlocksx Config.timing hpage w 1 (sessionOpened Config.timing F s) ht rfl
  have whole := carries_append (carries_append (carries_sessionOpening Config.timing F s ht) blocks)
    (carries_sessionClosing Config.timing _ (by exact ht) (by rfl))
  rw [← fmtx_eq] at whole
  simpa only [sessionOpened, sessionEvents, List.append_assoc] using whole

/-- A run may be stated with another clock, other draws and another payload at its end. -/
theorem runsTo_of_agrees {n : Nat} {s t t' : State} (h : runsTo n s t) (k : t'.agrees t) : runsTo n s t' := by
  obtain ⟨u, hu, hau⟩ := h
  exact ⟨u, hu, agrees_trans k hau⟩

/-- A loaded session on a valid data page runs to its end: the word is latched, the events are appended, the mask is
restored and the carrier is off. -/
theorem runsTo_session {s : State} {F : FormatDescriptor} (hpage : F.dataPage = 0#8 ∨ F.dataPage = 1#8)
    (word : CommandWord) (w : List DataWord) (hr : s.ready) (hc : s.carrier = .stopped) (hs : s.inSession = false)
    (ht : s.turns = []) {n : Nat} (hn : n = 191 + 171 * w.length) :
    runsTo n { s with pending := fmtx Config.timing F w, payload := w, cmdLatch := word }
      { s with
        pins := .reset, savedMask := s.gmask, phase := .idle, dblk := 0#3, cmdLatch := word,
        trace := s.trace ++ sessionEvents s.gmask F w } := by
  have run := runsTo_of_carries (carries_fmtx hpage w
    { s with pending := fmtx Config.timing F w, payload := w, cmdLatch := word } ht) rfl
  rw [fmtx_length, ← hn] at run
  refine runsTo_of_agrees run ⟨s.wallMicros, s.draws, w, ?_⟩
  have hp := hr.2
  obtain ⟨⟩ := s
  simp only at hc hs hp
  subst hc hs hp
  rfl

/-- Settles O34: the checks pass, so the session is loaded, and it runs to its end. -/
theorem descriptorSessionCompletes : Obligations.DescriptorSessionCompletes := by
  intro s F word idlen id w hr hc hs hlen htail he hw hpage
  constructor
  case left =>
    rw [descriptorAcceptance_of_checks hlen htail word hc he hw, issue_accepts _ hr]
    rfl
  case right =>
    intro ht
    have run := runsTo_session hpage word w hr hc hs ht rfl
    simpa only [sessionEvents, List.append_assoc] using run

/-- Settles O31: WRITE_FORMAT is the session of the descriptor the table answers. -/
theorem writeFormatCompletes : Obligations.WriteFormatCompletes := by
  intro s fmt idlen id F w hr hc hs hlookup hlen htail hw hwords hpage
  obtain ⟨issued, runs⟩ := descriptorSessionCompletes s F (wordWriteFormat fmt idlen id) idlen id w hr hc hs hlen
    htail hw.symm hwords hpage
  have loaded : exec (.writeFormat fmt idlen id) s = .next { s with
      pending := fmtx Config.timing F w, payload := w, cmdLatch := wordWriteFormat fmt idlen id } := by
    rw [exec_writeFormat, formatAcceptance_of_lookup hlookup, issued]
  refine ⟨loaded, fmtx_length Config.timing F w, fun ht a ha => ?_⟩
  rw [← Host.Outcome.next.inj (loaded.symm.trans ha)]
  exact runs ht

/-! The built-in formats. -/

theorem gapEvents_length (d : Nat) : (gapEvents d).length = 3 := rfl

theorem cellsEvents_length (t : TimingProfile) (bits : List Bool) : (cellsEvents t bits).length = 4 * bits.length := by
  induction bits with
  | nil => rfl
  | cons b bs ih =>
    rw [show cellsEvents t (b :: bs) = cellEvents t b ++ cellsEvents t bs from rfl, List.length_append, ih,
      show (cellEvents t b).length = 4 from rfl, List.length_cons]
    omega

theorem frameEvents_length (t : TimingProfile) (bits : List Bool) :
    (frameEvents t bits).length = 3 + 4 * bits.length := by
  rw [frameEvents, List.length_append, gapEvents_length, cellsEvents_length]

theorem blockEvents_length (t : TimingProfile) (page1 lock : Bool) (data : DataWord) (addr : BitVec 3) :
    (blockEvents t page1 lock data addr).length = 169 := by
  simp only [blockEvents, List.length_cons, List.length_append, frameEvents_length, writeFrameBits_length,
    List.length_nil]

/-- The events of a session of two words on data page 0, written out. -/
theorem sessionEvents_two (g : Bool) {F : FormatDescriptor} (hpage : F.dataPage = 0#8) (w0 w1 : DataWord) :
    sessionEvents g F [w0, w1] = [Event.start 125000 ⟨1, 2⟩, .mask g]
      ++ blockEvents Config.timing false false F.config 0#3
      ++ blockEvents Config.timing false false w0 1#3 ++ blockEvents Config.timing false false w1 2#3
      ++ frameEvents Config.timing [true, false] ++ [Event.unmask g, .stop, .pinsReset] := by
  have page0 : decide (F.dataPage = 1#8) = false := by rw [hpage]; decide
  simp [sessionEvents, page0, List.range_succ]

/-- The events of a session of three words on data page 0, written out. -/
theorem sessionEvents_three (g : Bool) {F : FormatDescriptor} (hpage : F.dataPage = 0#8) (w0 w1 w2 : DataWord) :
    sessionEvents g F [w0, w1, w2] = [Event.start 125000 ⟨1, 2⟩, .mask g]
      ++ blockEvents Config.timing false false F.config 0#3
      ++ blockEvents Config.timing false false w0 1#3 ++ blockEvents Config.timing false false w1 2#3
      ++ blockEvents Config.timing false false w2 3#3
      ++ frameEvents Config.timing [true, false] ++ [Event.unmask g, .stop, .pinsReset] := by
  have page0 : decide (F.dataPage = 1#8) = false := by rw [hpage]; decide
  simp [sessionEvents, page0, List.range_succ]

/-- Settles O32: the EM descriptor's session, whose two words are the halves of the encoder's. -/
theorem writeEmCompletes : Obligations.WriteEmCompletes := by
  intro s id p evs hr hc hs hp hevs
  have accepts := descriptorAcceptance_of_checks (F := Config.em) rfl (idTailZero_em id) (wordWriteEm id) hc
    (w := [p.extractLsb' 0 32, p.extractLsb' 32 32]) (by rw [idBytes_em, hp]; rfl) rfl
  have loaded := exec_of_accepts (i := .writeEm id) hr ((formatAcceptance_em id s).trans accepts)
  refine ⟨loaded, ?length, fun ht a ha => ?run⟩
  case length =>
    simp only [hevs, List.length_append, blockEvents_length, frameEvents_length, List.length_cons, List.length_nil]
  case run =>
    have events : sessionEvents s.gmask Config.em [p.extractLsb' 0 32, p.extractLsb' 32 32] = evs :=
      (sessionEvents_two s.gmask rfl _ _).trans hevs.symm
    rw [← Host.Outcome.next.inj (loaded.symm.trans ha), ← events]
    exact runsTo_session (F := Config.em) (.inl rfl) (wordWriteEm id) _ hr hc hs ht (by simp)

/-- A HID session by the number of words the encoder gives (43 R195). -/
theorem hidAcceptance_of_words {s : State} (id : BitVec 24) (hc : s.carrier = .stopped) {w : List DataWord}
    (hw : Config.encHid [id.extractLsb' 0 8, id.extractLsb' 8 8, id.extractLsb' 16 8] = w) :
    acceptanceOf (.writeHid id) s =
      if w.length = 3 then .accepts ⟨fmtx Config.timing Config.hid w, wordWriteHid id, some w⟩
      else .fails .encoderContract := by
  have encoded : Config.hid.encode (idBytes 3#4 (0#16 ++ id)) = w := by rw [idBytes_hid, ← hw]; rfl
  rw [acceptanceOf, formatAcceptance_hid]
  by_cases hlen : w.length = 3
  · rw [if_pos hlen]
    exact descriptorAcceptance_of_checks rfl (idTailZero_hid id) _ hc encoded hlen
  · rw [if_neg hlen]
    exact descriptorAcceptance_of_contract rfl (idTailZero_hid id) _ hc (by rw [encoded]; exact hlen)

/-- Settles O33: the session of the encoder's words where there are three, else the contract fault. -/
theorem writeHidCompletes : Obligations.WriteHidCompletes := by
  intro s id hr hc hs
  split
  case h_1 w0 w1 w2 hw =>
    have accepts := (hidAcceptance_of_words id hc hw).trans (if_pos rfl)
    refine ⟨_, exec_of_accepts (i := .writeHid id) hr accepts, rfl, fun ht => ⟨_, rfl, ?length, ?run⟩⟩
    case length =>
      simp only [List.length_append, blockEvents_length, frameEvents_length, List.length_cons, List.length_nil]
    case run =>
      have run := runsTo_session (F := Config.hid) (.inl rfl) (wordWriteHid id) [w0, w1, w2] hr hc hs ht
        (n := 704) (by simp)
      rw [sessionEvents_three s.gmask (F := Config.hid) rfl] at run
      exact run
  case h_2 notThree =>
    have accepts := (hidAcceptance_of_words id hc rfl).trans (if_neg fun hlen => by
      obtain ⟨w0, w1, w2, hw⟩ := List.length_eq_three.1 hlen
      exact notThree w0 w1 w2 hw)
    exact ⟨_, exec_of_fails (i := .writeHid id) hr accepts, rfl⟩

/-- Settles O38: the opening runs, the first data block's page check faults, and the teardown ends the session. -/
theorem sessionInvalidPageTearsDown : Obligations.SessionInvalidPageTearsDown := by
  intro s F w0 ws hf hc hs ht hp not_zero not_one
  obtain ⟨blockRest, hblk⟩ := blkx_checks_page_first Config.timing F.dataPage (BitVec.ofNat 3 1) false w0
  have pending : ∃ rest, s.pending = sessionOpening Config.timing F ++ .checkPage F.dataPage :: rest := by
    rw [hp, fmtx_eq, dataBlocksx_cons, hblk]
    simp only [List.append_assoc, List.cons_append]
    exact ⟨_, rfl⟩
  obtain ⟨rest, hpending⟩ := pending
  have run := runsTo_of_fault (carries_sessionOpening Config.timing F s ht) hpending ht hf
    (perform_checkPage_of_invalid (not_or.2 ⟨not_zero, not_one⟩) _)
  have length : (sessionOpening Config.timing F).length = 174 := by
    simp only [sessionOpening, List.length_append, blkx_length, List.length_cons, List.length_nil]
  rw [length] at run
  obtain ⟨⟩ := s
  simp only at hc hs
  subst hc hs
  simpa [tornDown, teardown, sessionOpened] using run

end Sys2Proof.Machine
end
